-- ==== Sys2Proof/Word.lean ====
section
/-! DEFINITION. Word.lean: the two widths the spec gives every quantity (00_scope.md R7, R12). All arithmetic is
unsigned and modular, which is the arithmetic of `BitVec`. -/

namespace Sys2Proof

/-- An 8-bit quantity: a register, a memory cell, an opcode, an immediate byte. -/
abbrev Byte := BitVec 8

/-- A 16-bit quantity: pc, sp, a register pair, an address, the ALU's internal result. -/
abbrev Word := BitVec 16

end Sys2Proof
end

