-- ==== Sys2Proof/Syntax.lean ====
section
/-! DEFINITION. Syntax.lean: the instructions, one constructor for each row of spec/opcode_table.json, in the table's order.
A mnemonic is the Intel name of a byte and promises nothing (30_encoding.md R101): `ldaxB` loads through DE. -/

namespace Sys2Proof

/-- The seven 8-bit cells of the register file (10_state.md R20). -/
inductive Reg where
  | B | C | D | E | H | L | A
  deriving DecidableEq, Repr

/-- What a 3-bit selector names: a register, or the memory cell at address HL (10_state.md R21). -/
inductive Operand where
  | reg (r : Reg)
  | mem
  deriving DecidableEq, Repr

/-- The register pairs, high half named first (10_state.md R23). -/
inductive RegPair where
  | BC | DE | HL
  deriving DecidableEq, Repr

/-- The operand of DAD and INX: a pair or the stack pointer (30_encoding.md R91). -/
inductive PairOrSp where
  | pair (p : RegPair)
  | sp
  deriving DecidableEq, Repr

/-- The families of the top-level dispatch (40_decoder_sequencer.md R118, rows 1 to 12). -/
inductive Family where
  | nop | stc | cmc | hlt | ldax | sta | lda | xchg | jump | single | mov | alu
  deriving DecidableEq, Repr

/-- One constructor for each row of spec/opcode_table.json. Immediates are part of the instruction. The eleven `illegal`
constructors are the fatal rows, named by their (cls, snd) fields and carrying the row's free bits: three for `f` (fst), two
for `p` (fst[2:1]). -/
inductive Instr where
  | nop
  | stc
  | cmc
  | hlt
  | ldaxB
  | ldaxD
  | sta (a16 : Word)
  | lda (a16 : Word)
  | xchg
  | jmp (a16 : Word)
  | jnz (a16 : Word)
  | jz (a16 : Word)
  | jnc (a16 : Word)
  | jc (a16 : Word)
  | jpo (a16 : Word)
  | jpe (a16 : Word)
  | jp (a16 : Word)
  | jm (a16 : Word)
  | inrM
  | inrR (d : Reg)
  | dcrM
  | dcrR (d : Reg)
  | rlc
  | rrc
  | dad (y : PairOrSp)
  | inx (y : PairOrSp)
  | pushPsw
  | pushRp (p : RegPair)
  | popPsw
  | popRp (p : RegPair)
  | mviM (d8 : Byte)
  | mviR (d : Reg) (d8 : Byte)
  | adi (d8 : Byte)
  | aci (d8 : Byte)
  | sui (d8 : Byte)
  | sbi (d8 : Byte)
  | ani (d8 : Byte)
  | xri (d8 : Byte)
  | ori (d8 : Byte)
  | cpi (d8 : Byte)
  | illegalS07 (f : BitVec 3)
  | illegalS01 (p : BitVec 2)
  | illegalS03 (p : BitVec 2)
  | illegalS00 (f : BitVec 3)
  | illegalS02 (f : BitVec 3)
  | illegalS35 (p : BitVec 2)
  | illegalS31 (p : BitVec 2)
  | movMR (r : Reg)
  | movRM (d : Reg)
  | movRR (d : Reg) (r : Reg)
  | add (o : Operand)
  | adc (o : Operand)
  | sub (o : Operand)
  | sbb (o : Operand)
  | ana (o : Operand)
  | xra (o : Operand)
  | ora (o : Operand)
  | cmp (o : Operand)
  | illegalU30 (f : BitVec 3)
  | illegalU34 (f : BitVec 3)
  | illegalU37 (f : BitVec 3)
  | illegalU33 (f : BitVec 3)
  deriving DecidableEq, Repr

end Sys2Proof
end

