-- ==== Sys2Proof/WellFormed.lean ====
section
/-! DEFINITION. WellFormed.lean: which terms of `Instr` stand for bytes. Operand types leave only the fatal rows to check:
four of them share their mask with rows that come earlier in the table, whose bytes the row excludes (30_encoding.md R100). -/

namespace Sys2Proof

/-- The rotate group's fatal selectors: 0 and 1 are RLC and RRC, 6 and 7 are STC and CMC (30_encoding.md R93). -/
def fatalRotate (f : BitVec 3) : Bool := 2 ≤ f && f ≤ 5

/-- (cls, snd) = (0, 0) without 0x00, which is NOP (30_encoding.md R98). -/
def fatalZeroZero (f : BitVec 3) : Bool := f != 0

/-- (cls, snd) = (0, 2) without the two LDAX bytes, STA and LDA (30_encoding.md R98). -/
def fatalZeroTwo (f : BitVec 3) : Bool := f == 0 || f == 2 || f == 4 || f == 5

/-- (cls, snd) = (3, 3) without JMP and XCHG (30_encoding.md R98). -/
def fatalThreeThree (f : BitVec 3) : Bool := f != 0 && f != 5

/-- The instruction stands for bytes of the opcode map. -/
def Instr.wellFormed : Instr → Bool
  | .illegalS07 f => fatalRotate f
  | .illegalS00 f => fatalZeroZero f
  | .illegalS02 f => fatalZeroTwo f
  | .illegalU33 f => fatalThreeThree f
  | .nop | .stc | .cmc | .hlt | .ldaxB | .ldaxD | .sta _ | .lda _ | .xchg => true
  | .jmp _ | .jnz _ | .jz _ | .jnc _ | .jc _ | .jpo _ | .jpe _ | .jp _ | .jm _ => true
  | .inrM | .inrR _ | .dcrM | .dcrR _ | .rlc | .rrc | .dad _ | .inx _ => true
  | .pushPsw | .pushRp _ | .popPsw | .popRp _ | .mviM _ | .mviR _ _ => true
  | .adi _ | .aci _ | .sui _ | .sbi _ | .ani _ | .xri _ | .ori _ | .cpi _ => true
  | .illegalS01 _ | .illegalS03 _ | .illegalS35 _ | .illegalS31 _ => true
  | .movMR _ | .movRM _ | .movRR _ _ => true
  | .add _ | .adc _ | .sub _ | .sbb _ | .ana _ | .xra _ | .ora _ | .cmp _ => true
  | .illegalU30 _ | .illegalU34 _ | .illegalU37 _ => true

end Sys2Proof
end

