-- ==== Sys2Proof/Decode.lean ====
section
/-! DEFINITION. Decode.lean: the opcode decoder's five extractors, the top-level dispatch, the sub-dispatch of the
single-operand family, the decoder from bytes to instructions, and the encoder. -/

namespace Sys2Proof

/-! ### Bytes of a 16-bit value (00_scope.md section 6) -/

/-- `{hi, lo}`: concatenation, `hi` in the high bits. -/
def wordOf (hi lo : Byte) : Word := hi ++ lo

/-- `v[15:8]`. -/
def hiByte (v : Word) : Byte := v.extractLsb' 8 8

/-- `v[7:0]`. -/
def loByte (v : Word) : Byte := v.extractLsb' 0 8

/-! ### The OpCode Decoder (40_decoder_sequencer.md R110 to R115) -/

/-- `rps = op[4]` (R110). -/
def rps (op : Byte) : Bool := op.getLsbD 4

/-- `cls = op[7:6]` (R111). -/
def cls (op : Byte) : BitVec 2 := op.extractLsb' 6 2

/-- `fst = op[5:3]` (R112). -/
def fst (op : Byte) : BitVec 3 := op.extractLsb' 3 3

/-- `snd = op[2:0]` (R113). -/
def snd (op : Byte) : BitVec 3 := op.extractLsb' 0 3

/-- `ju = (fst == 0b000) and (snd == 0b011)` (R114; the spec's decision D8, log 8). -/
def ju (op : Byte) : Bool := fst op == 0 && snd op == 3

/-- `rp = fst[2:1]`, the 2-bit pair selector (30_encoding.md R91). -/
def pairSel (op : Byte) : BitVec 2 := op.extractLsb' 4 2

/-- `fst[0]`, the pair forms' discriminant (30_encoding.md R91). -/
def pairBit (op : Byte) : Bool := op.getLsbD 3

/-! ### Selectors (10_state.md R21, 30_encoding.md R91) -/

/-- The place a 3-bit selector names (10_state.md R21; values 2, 3, 4, 5, 7 are the 8080 class's, log 4). -/
def Operand.ofSel (s : BitVec 3) : Operand :=
  match s.toNat with
  | 0 => .reg .B
  | 1 => .reg .C
  | 2 => .reg .D
  | 3 => .reg .E
  | 4 => .reg .H
  | 5 => .reg .L
  | 6 => .mem
  | _ => .reg .A

/-- The pair of selector values 0 to 2; `none` for 3, which names sp or the accumulator and flags (30_encoding.md R91,
log 5). -/
def RegPair.ofSel (p : BitVec 2) : Option RegPair :=
  match p.toNat with
  | 0 => some .BC
  | 1 => some .DE
  | 2 => some .HL
  | _ => none

/-- The operand of DAD and INX (30_encoding.md R91). -/
def PairOrSp.ofSel (p : BitVec 2) : PairOrSp :=
  match RegPair.ofSel p with
  | some q => .pair q
  | none => .sp

/-! ### Dispatch -/

/-- The nine bytes of the jump family (44_jump.md R200). -/
def jumpOpcodes : List Byte := [0xC2, 0xC3, 0xCA, 0xD2, 0xDA, 0xE2, 0xEA, 0xF2, 0xFA]

/-- Row 10 of the dispatch: `0x01 <= op <= 0x3E`, or class 3 with `snd` in {1, 5, 6} (40_decoder_sequencer.md R118; the
second half is the spec's repair D9, log 9). -/
def inSingleRange (op : Byte) : Bool :=
  (0x01 ≤ op && op ≤ 0x3E) || (cls op == 3 && (snd op == 1 || snd op == 5 || snd op == 6))

/-- The top-level dispatch, rows in the spec's order; `none` is row 13 (40_decoder_sequencer.md R118). -/
def classify (op : Byte) : Option Family :=
  if op == 0x00 then some .nop
  else if op == 0x37 then some .stc
  else if op == 0x3F then some .cmc
  else if op == 0x76 then some .hlt
  else if op == 0x0A || op == 0x1A then some .ldax
  else if op == 0x32 then some .sta
  else if op == 0x3A then some .lda
  else if op == 0xEB then some .xchg
  else if jumpOpcodes.contains op then some .jump
  else if inSingleRange op then some .single
  else if 0x40 ≤ op && op ≤ 0x7F then some .mov
  else if 0x80 ≤ op && op ≤ 0xBF then some .alu
  else none

/-- How many operand bytes follow the opcode (30_encoding.md R85). A fatal byte has none: it is raised before any operand
byte is read (40_decoder_sequencer.md R123). -/
def operandCount (op : Byte) : Nat :=
  if op == 0x32 || op == 0x3A || jumpOpcodes.contains op then 2
  else if (cls op == 0 || cls op == 3) && snd op == 6 then 1
  else 0

/-- The jump of an opcode byte of the family: `ju` first, then the condition selector (30_encoding.md R90). -/
def decodeJump (op : Byte) (a16 : Word) : Instr :=
  if ju op then .jmp a16
  else
    match (fst op).toNat with
    | 0 => .jnz a16
    | 1 => .jz a16
    | 2 => .jnc a16
    | 3 => .jc a16
    | 4 => .jpo a16
    | 5 => .jpe a16
    | 6 => .jp a16
    | _ => .jm a16

/-- The register form of the ALU operation selector (30_encoding.md R89). -/
def decodeAlu (op : Byte) : Instr :=
  let o := Operand.ofSel (snd op)
  match (fst op).toNat with
  | 0 => .add o
  | 1 => .adc o
  | 2 => .sub o
  | 3 => .sbb o
  | 4 => .ana o
  | 5 => .xra o
  | 6 => .ora o
  | _ => .cmp o

/-- The immediate form of the ALU operation selector (30_encoding.md R89). -/
def decodeAluImm (op d8 : Byte) : Instr :=
  match (fst op).toNat with
  | 0 => .adi d8
  | 1 => .aci d8
  | 2 => .sui d8
  | 3 => .sbi d8
  | 4 => .ani d8
  | 5 => .xri d8
  | 6 => .ori d8
  | _ => .cpi d8

/-- Register/memory transfer, by where the two operands are (43_transfer.md R180, R181, R189). The byte with both
selectors 6 is HLT and never reaches this family. -/
def decodeMov (op : Byte) : Instr :=
  match Operand.ofSel (fst op), Operand.ofSel (snd op) with
  | .reg d, .reg r => .movRR d r
  | .reg d, .mem => .movRM d
  | .mem, .reg r => .movMR r
  | .mem, .mem => .hlt

/-- The sub-dispatch of the single-operand family by (cls, snd), then by `fst` (40_decoder_sequencer.md R119). -/
def decodeSingle (op d8 : Byte) : Instr :=
  match (cls op).toNat, (snd op).toNat with
  | 0, 4 => match Operand.ofSel (fst op) with
    | .mem => .inrM
    | .reg d => .inrR d
  | 0, 5 => match Operand.ofSel (fst op) with
    | .mem => .dcrM
    | .reg d => .dcrR d
  | 0, 7 => match (fst op).toNat with
    | 0 => .rlc
    | 1 => .rrc
    | _ => .illegalS07 (fst op)
  | 0, 1 => if pairBit op then .dad (PairOrSp.ofSel (pairSel op)) else .illegalS01 (pairSel op)
  | 0, 3 => if pairBit op then .illegalS03 (pairSel op) else .inx (PairOrSp.ofSel (pairSel op))
  | 0, 6 => match Operand.ofSel (fst op) with
    | .mem => .mviM d8
    | .reg d => .mviR d d8
  | 0, 0 => .illegalS00 (fst op)
  | 0, _ => .illegalS02 (fst op)
  | _, 5 =>
    if pairBit op then .illegalS35 (pairSel op)
    else match RegPair.ofSel (pairSel op) with
      | some p => .pushRp p
      | none => .pushPsw
  | _, 1 =>
    if pairBit op then .illegalS31 (pairSel op)
    else match RegPair.ofSel (pairSel op) with
      | some p => .popRp p
      | none => .popPsw
  | _, _ => decodeAluImm op d8

/-- Row 13: the fatal row an unmatched byte belongs to, by `snd`; every such byte has class 3 (30_encoding.md R98). -/
def decodeUnmatched (op : Byte) : Instr :=
  match (snd op).toNat with
  | 0 => .illegalU30 (fst op)
  | 4 => .illegalU34 (fst op)
  | 7 => .illegalU37 (fst op)
  | _ => .illegalU33 (fst op)

/-- The instruction of opcode byte `op` when the two bytes after it are `b1` and `b2`; a form that has fewer operand bytes
ignores them (30_encoding.md R86, R87: `a16` has its low byte first). -/
def decodeWith (op b1 b2 : Byte) : Instr :=
  match classify op with
  | some .nop => .nop
  | some .stc => .stc
  | some .cmc => .cmc
  | some .hlt => .hlt
  | some .ldax => if rps op then .ldaxD else .ldaxB
  | some .sta => .sta (wordOf b2 b1)
  | some .lda => .lda (wordOf b2 b1)
  | some .xchg => .xchg
  | some .jump => decodeJump op (wordOf b2 b1)
  | some .single => decodeSingle op b1
  | some .mov => decodeMov op
  | some .alu => decodeAlu op
  | none => decodeUnmatched op

/-- Why a list of bytes is no instruction: it holds no opcode, or ends inside the operand bytes. Every opcode byte has a
meaning, so there is no third reason. -/
inductive DecodeError where
  | noOpcode
  | truncated
  deriving DecidableEq, Repr

/-- What the decoder answers for a byte list. -/
inductive Decoded where
  /-- the first instruction, and the bytes after it -/
  | instr (i : Instr) (rest : List Byte)
  /-- no instruction, and why -/
  | rejected (why : DecodeError)
  deriving DecidableEq, Repr

/-- Decode the first instruction of a byte list. -/
def decode : List Byte → Decoded
  | [] => .rejected .noOpcode
  | op :: rest =>
    match operandCount op, rest with
    | 0, _ => .instr (decodeWith op 0 0) rest
    | 1, b1 :: rest' => .instr (decodeWith op b1 0) rest'
    | _ + 2, b1 :: b2 :: rest' => .instr (decodeWith op b1 b2) rest'
    | _, _ => .rejected .truncated

/-! ### The encoder, from the same tables -/

/-- The selector value of a register (10_state.md R21). -/
def Reg.sel : Reg → BitVec 3
  | .B => 0
  | .C => 1
  | .D => 2
  | .E => 3
  | .H => 4
  | .L => 5
  | .A => 7

/-- The selector value of a place (10_state.md R21). -/
def Operand.sel : Operand → BitVec 3
  | .reg r => r.sel
  | .mem => 6

/-- The selector value of a pair (30_encoding.md R91). -/
def RegPair.sel : RegPair → BitVec 2
  | .BC => 0
  | .DE => 1
  | .HL => 2

/-- The selector value of DAD's and INX's operand (30_encoding.md R91). -/
def PairOrSp.sel : PairOrSp → BitVec 2
  | .pair p => p.sel
  | .sp => 3

/-- The opcode byte `cls fst snd` (30_encoding.md R81). -/
def opcode (c : BitVec 2) (f s : BitVec 3) : Byte := c ++ f ++ s

/-- The opcode byte of a pair form: `cls`, the pair selector, `fst[0]`, `snd` (30_encoding.md R91). -/
def pairOpcode (c p : BitVec 2) (b : BitVec 1) (s : BitVec 3) : Byte := c ++ p ++ b ++ s

/-- Format F3: opcode, then `a16` low byte first (30_encoding.md R83). -/
def addrForm (op : Byte) (a16 : Word) : List Byte := [op, loByte a16, hiByte a16]

/-- The bytes of an instruction (30_encoding.md R81 to R83, R95). -/
def encode : Instr → List Byte
  | .nop => [0x00]
  | .stc => [0x37]
  | .cmc => [0x3F]
  | .hlt => [0x76]
  | .ldaxB => [0x0A]
  | .ldaxD => [0x1A]
  | .sta a => addrForm 0x32 a
  | .lda a => addrForm 0x3A a
  | .xchg => [0xEB]
  | .jmp a => addrForm 0xC3 a
  | .jnz a => addrForm 0xC2 a
  | .jz a => addrForm 0xCA a
  | .jnc a => addrForm 0xD2 a
  | .jc a => addrForm 0xDA a
  | .jpo a => addrForm 0xE2 a
  | .jpe a => addrForm 0xEA a
  | .jp a => addrForm 0xF2 a
  | .jm a => addrForm 0xFA a
  | .inrM => [0x34]
  | .inrR d => [opcode 0 d.sel 4]
  | .dcrM => [0x35]
  | .dcrR d => [opcode 0 d.sel 5]
  | .rlc => [0x07]
  | .rrc => [0x0F]
  | .dad y => [pairOpcode 0 y.sel 1 1]
  | .inx y => [pairOpcode 0 y.sel 0 3]
  | .pushPsw => [0xF5]
  | .pushRp p => [pairOpcode 3 p.sel 0 5]
  | .popPsw => [0xF1]
  | .popRp p => [pairOpcode 3 p.sel 0 1]
  | .mviM d8 => [0x36, d8]
  | .mviR d d8 => [opcode 0 d.sel 6, d8]
  | .adi d8 => [0xC6, d8]
  | .aci d8 => [0xCE, d8]
  | .sui d8 => [0xD6, d8]
  | .sbi d8 => [0xDE, d8]
  | .ani d8 => [0xE6, d8]
  | .xri d8 => [0xEE, d8]
  | .ori d8 => [0xF6, d8]
  | .cpi d8 => [0xFE, d8]
  | .illegalS07 f => [opcode 0 f 7]
  | .illegalS01 p => [pairOpcode 0 p 0 1]
  | .illegalS03 p => [pairOpcode 0 p 1 3]
  | .illegalS00 f => [opcode 0 f 0]
  | .illegalS02 f => [opcode 0 f 2]
  | .illegalS35 p => [pairOpcode 3 p 1 5]
  | .illegalS31 p => [pairOpcode 3 p 1 1]
  | .movMR r => [opcode 1 6 r.sel]
  | .movRM d => [opcode 1 d.sel 6]
  | .movRR d r => [opcode 1 d.sel r.sel]
  | .add o => [opcode 2 0 o.sel]
  | .adc o => [opcode 2 1 o.sel]
  | .sub o => [opcode 2 2 o.sel]
  | .sbb o => [opcode 2 3 o.sel]
  | .ana o => [opcode 2 4 o.sel]
  | .xra o => [opcode 2 5 o.sel]
  | .ora o => [opcode 2 6 o.sel]
  | .cmp o => [opcode 2 7 o.sel]
  | .illegalU30 f => [opcode 3 f 0]
  | .illegalU34 f => [opcode 3 f 4]
  | .illegalU37 f => [opcode 3 f 7]
  | .illegalU33 f => [opcode 3 f 3]

/-- An instruction's length by family; a fatal row has length 0, since it consumes nothing (30_encoding.md R85, R100;
40_decoder_sequencer.md R121). -/
def Instr.length : Instr → Nat
  | .sta _ | .lda _ => 3
  | .jmp _ | .jnz _ | .jz _ | .jnc _ | .jc _ | .jpo _ | .jpe _ | .jp _ | .jm _ => 3
  | .mviM _ | .mviR _ _ => 2
  | .adi _ | .aci _ | .sui _ | .sbi _ | .ani _ | .xri _ | .ori _ | .cpi _ => 2
  | .nop | .stc | .cmc | .hlt | .ldaxB | .ldaxD | .xchg => 1
  | .inrM | .inrR _ | .dcrM | .dcrR _ | .rlc | .rrc | .dad _ | .inx _ => 1
  | .pushPsw | .pushRp _ | .popPsw | .popRp _ => 1
  | .movMR _ | .movRM _ | .movRR _ _ => 1
  | .add _ | .adc _ | .sub _ | .sbb _ | .ana _ | .xra _ | .ora _ | .cmp _ => 1
  | .illegalS07 _ | .illegalS01 _ | .illegalS03 _ | .illegalS00 _ | .illegalS02 _ | .illegalS35 _ | .illegalS31 _ => 0
  | .illegalU30 _ | .illegalU34 _ | .illegalU37 _ | .illegalU33 _ => 0

/-! ### Words numbered as spec/opcode_table.json numbers them -/

/-- Byte `k` of an instruction given as one number, bit 0 the least significant bit of the first byte; bits from `nbits` up
are zero. -/
def tableByte (nbits w k : Nat) : Byte := BitVec.ofNat 8 (w % 2 ^ nbits / 2 ^ (8 * k))

/-- The three bytes of a table word, the longest instruction the spec has. -/
def tableBytes (nbits w : Nat) : List Byte := [tableByte nbits w 0, tableByte nbits w 1, tableByte nbits w 2]

/-- The instruction the decoder reads from a table word. -/
def decodeTableWord (nbits w : Nat) : Option Instr :=
  match decode (tableBytes nbits w) with
  | .instr i _ => some i
  | .rejected _ => none

end Sys2Proof
end

