-- ==== Sys2Proof/Config.lean ====
section
/-! DEFINITION. Config.lean: what the spec fixes for the machine as a whole. The spec leaves no value free, so there is no
opaque constant here; its one open parameter, IMAGE_LEN, is set when the machine is constructed and is carried in State. -/

namespace Sys2Proof.Config

/-- `MEM_SIZE`: "an array of 65536 independently addressable 8-bit cells" (00_scope.md R8, 20_memory.md R50). -/
def memSize : Nat := 65536

/-- What a cell that nothing has written reads as: memory is "zero-initialized" (10_state.md R41). -/
def coldByte : Byte := 0

end Sys2Proof.Config
end

