-- ==== Sys2Proof/Machine/State.lean ====
section
/-! DEFINITION. Machine/State.lean: the complete architectural state of 10_state.md R42, as plain data, the reasons a run
can stop, and the state after reset. -/

namespace Sys2Proof.Machine

/-- The seven 8-bit cells of the register file (10_state.md R20). -/
structure Regs where
  a : Byte
  b : Byte
  c : Byte
  d : Byte
  e : Byte
  h : Byte
  l : Byte
  deriving DecidableEq, Repr

/-- The five condition flags (10_state.md R29). -/
structure Flags where
  /-- zero -/
  z : Bool
  /-- sign -/
  s : Bool
  /-- parity -/
  p : Bool
  /-- carry -/
  cy : Bool
  /-- auxiliary carry: written by POP PSW only (R31) -/
  ac : Bool
  deriving DecidableEq, Repr

/-- Memory: the cells that do not hold `Config.coldByte`, by rising address (10_state.md R40). The canonical form is
`Memory.wf` (Machine/Ops.lean). -/
structure Memory where
  cells : List Host.Cell
  deriving DecidableEq, Repr

/-- The spec's fatal faults, complete, with the information each records (60_exceptions.md R250). Raising one is a state
change the spec describes (R255), so it is a NEXT state whose `runState` holds the fault; no step ever answers the
interface's `fault` outcome with one. -/
inductive Fault where
  /-- Cause 1. Raised by the meanings of the `illegalU` rows: no range or value of the top-level dispatch matches (R251).
  Safe: the spec makes the byte fatal. -/
  | unrecognizedOpcode (op : Byte) (pc : Word)
  /-- Cause 2. Raised by the meanings of the `illegalS` rows: the single-operand family has no such form (R252). Safe: the
  spec makes the byte fatal. -/
  | unrecognizedSubOperation (op : Byte) (pc : Word)
  /-- Cause 3. Raised by the core's memory accesses when the memory port answers its bounds error (R253). Safe: a 16-bit
  address never gets that answer. -/
  | memoryOutOfBounds (offset : Nat)
  deriving DecidableEq, Repr

/-- Inputs the model has no meaning for. No instruction is refused. -/
inductive Refusal where
  /-- Raised by an arm of `exec` whose instruction has no meaning yet; no arm is left so. Safe: nothing follows from it. -/
  | notModelled (mnemonic : String)
  /-- Raised by `State.construct` for an image of more than 65536 bytes, which the spec refuses (20_memory.md R65, log 23).
  Safe: nothing follows from it. -/
  | imageTooLong (length : Nat)
  deriving DecidableEq, Repr

/-- The loop's status (10_state.md R36). -/
inductive RunState where
  /-- the next cycle will fetch at pc -/
  | running
  /-- the halt opcode was executed -/
  | halted
  /-- pc reached the end of the loaded image -/
  | ended
  /-- a fatal error ended the run, held with its information (R37) -/
  | faulted (cause : Fault)
  deriving DecidableEq, Repr

/-- The state of 10_state.md R42. `imageLen` is the model's own field: it carries the construction parameter IMAGE_LEN
(00_scope.md R8), which no step changes (logs 12 and 24). -/
structure State where
  regs : Regs
  flags : Flags
  pc : Word
  sp : Word
  mem : Memory
  runState : RunState
  imageLen : Nat
  deriving DecidableEq, Repr

/-- What one step or one instruction answers. -/
abbrev Result := Host.Outcome State Fault Refusal

/-- The machine constructed on the empty image (70_reset_and_hazards.md R280; the values of 10_state.md R41). The values of
A, C, D, E, H, L and the flags are the spec's decision D2 (log 2). -/
def State.reset : State where
  regs := { a := 0, b := 0, c := 0, d := 0, e := 0, h := 0, l := 0 }
  flags := { z := false, s := false, p := false, cy := false, ac := false }
  pc := 0
  sp := 0
  mem := { cells := [] }
  runState := .running
  imageLen := 0

end Sys2Proof.Machine
end

