-- ==== Sys2Proof/Machine/Ops.lean ====
section
/-! DEFINITION. Machine/Ops.lean: the named operations every meaning is written with: registers and pairs, memory and its
port, raising a fault, and the advance of the program counter. -/

namespace Sys2Proof.Machine

/-! ### Registers and pairs (10_state.md R20 to R23) -/

/-- `x[s]`, read. -/
def Regs.get (x : Regs) : Reg → Byte
  | .A => x.a
  | .B => x.b
  | .C => x.c
  | .D => x.d
  | .E => x.e
  | .H => x.h
  | .L => x.l

/-- `x[s] <- v`. -/
def Regs.set (x : Regs) (r : Reg) (v : Byte) : Regs :=
  match r with
  | .A => { x with a := v }
  | .B => { x with b := v }
  | .C => { x with c := v }
  | .D => { x with d := v }
  | .E => { x with e := v }
  | .H => { x with h := v }
  | .L => { x with l := v }

/-- The cell that holds a pair's high half: it is named first (R23). -/
def hiReg : RegPair → Reg
  | .BC => .B
  | .DE => .D
  | .HL => .H

/-- The cell that holds a pair's low half (R23). -/
def loReg : RegPair → Reg
  | .BC => .C
  | .DE => .E
  | .HL => .L

/-- The 8-bit register `r`. -/
def State.reg (s : State) (r : Reg) : Byte := s.regs.get r

/-- The state with register `r` holding `v`. -/
def State.setReg (s : State) (r : Reg) (v : Byte) : State := { s with regs := s.regs.set r v }

/-- `pair_value = (high << 8) | low` (R23). -/
def State.pair (s : State) (p : RegPair) : Word := wordOf (s.reg (hiReg p)) (s.reg (loReg p))

/-- `high <- v[15:8]`, `low <- v[7:0]` (R23). -/
def State.setPair (s : State) (p : RegPair) (v : Word) : State :=
  (s.setReg (hiReg p) (hiByte v)).setReg (loReg p) (loByte v)

/-- The state with the flags `f`. -/
def State.setFlags (s : State) (f : Flags) : State := { s with flags := f }

/-- The state with the carry flag `b` and the other flags held. -/
def State.setCarry (s : State) (b : Bool) : State := { s with flags := { s.flags with cy := b } }

/-- The state with program counter `v`. -/
def State.setPc (s : State) (v : Word) : State := { s with pc := v }

/-- The state with stack pointer `v`. -/
def State.setSp (s : State) (v : Word) : State := { s with sp := v }

/-- The state with memory `m`. -/
def State.setMem (s : State) (m : Memory) : State := { s with mem := m }

/-- The state with run state `r`. -/
def State.setRunState (s : State) (r : RunState) : State := { s with runState := r }

/-! ### Memory as data (20_memory.md R50, R62) -/

/-- The cells are in canonical form from address `lo` on: addresses strictly rise, each names a cell that exists, and no
entry equals what an unlisted cell reads as. -/
def wfFrom (lo : Nat) : List Host.Cell → Bool
  | [] => true
  | (a, v) :: rest => decide (lo ≤ a) && decide (a < Config.memSize) && (v != Config.coldByte) && wfFrom (a + 1) rest

/-- The canonical form, so that equal memories are equal data. -/
def Memory.wf (m : Memory) : Bool := wfFrom 0 m.cells

/-- The byte listed at address `a`, or what an unlisted cell reads as. -/
def lookupCell (a : Nat) : List Host.Cell → Byte
  | [] => Config.coldByte
  | (k, v) :: rest => if k = a then v else lookupCell a rest

/-- The content of cell `a`. -/
def Memory.load (m : Memory) (a : Nat) : Byte := lookupCell a m.cells

/-- The cells without any entry at address `a`. -/
def eraseCell (a : Nat) : List Host.Cell → List Host.Cell
  | [] => []
  | (k, v) :: rest => if k = a then eraseCell a rest else (k, v) :: eraseCell a rest

/-- The cells with an entry at address `a` put before the first higher address. -/
def insertCell (a : Nat) (v : Byte) : List Host.Cell → List Host.Cell
  | [] => [(a, v)]
  | (k, w) :: rest => if a < k then (a, v) :: (k, w) :: rest else (k, w) :: insertCell a v rest

/-- Memory with cell `a` holding `v`; a cell that reads as if unlisted is not listed. -/
def Memory.store (m : Memory) (a : Nat) (v : Byte) : Memory :=
  { cells := if v = Config.coldByte then eraseCell a m.cells else insertCell a v (eraseCell a m.cells) }

/-- The byte at a 16-bit address, as an observer reads it (70_reset_and_hazards.md R285). -/
def State.byteAt (s : State) (a : Word) : Byte := s.mem.load a.toNat

/-- The state with the byte at a 16-bit address replaced. -/
def State.setByteAt (s : State) (a : Word) (v : Byte) : State := s.setMem (s.mem.store a.toNat v)

/-! ### The memory port (20_memory.md R60 to R64) -/

/-- `fetch_byte(offset)`: the cell's content, or the bounds error (R60, R64). -/
def Memory.fetchByte (m : Memory) (offset : Nat) : Except Fault Byte :=
  if offset < Config.memSize then .ok (m.load offset) else .error (.memoryOutOfBounds offset)

/-- `fetch_bytes(offset, count)`: the cells in rising order (R61). The core does not use it. A read that runs past the last
cell is answered with the bounds error of the first offset out of range (log 29). -/
def Memory.fetchBytes (m : Memory) (offset : Nat) : Nat → Except Fault (List Byte)
  | 0 => .ok []
  | count + 1 =>
    match m.fetchByte offset with
    | .error f => .error f
    | .ok b =>
      match m.fetchBytes (offset + 1) count with
      | .error f => .error f
      | .ok bs => .ok (b :: bs)

/-- `set_byte(offset, value)`: that cell changed and no other, or the bounds error (R62, R64). -/
def Memory.setByte (m : Memory) (offset : Nat) (v : Byte) : Except Fault Memory :=
  if offset < Config.memSize then .ok (m.store offset v) else .error (.memoryOutOfBounds offset)

/-- `length()`: the number of cells (R63). -/
def Memory.length (_ : Memory) : Nat := Config.memSize

/-! ### Raising a fault: the machine's one exception entry -/

/-- `raise <Fault>(info)`: `run_state <- FAULTED(<Fault>, info)` and nothing else: no register saved, no vector read
(60_exceptions.md R255). There is no return from it (R257), so no operation stands beside it. -/
def raise (f : Fault) (s : State) : Result := .next (s.setRunState (.faulted f))

/-- The numeric cause of a fault (60_exceptions.md R250; the spec's decision D14, log 14). -/
def Fault.code : Fault → Nat
  | .unrecognizedOpcode _ _ => 1
  | .unrecognizedSubOperation _ _ => 2
  | .memoryOutOfBounds _ => 3

/-! ### The core's accesses: the port's answer, or the fault it stands for (60_exceptions.md R253) -/

/-- Read the port at `offset` and go on with the byte; on the bounds error raise its fault in the state reached so far. -/
def portRead (offset : Nat) (s : State) (k : Byte → Result) : Result :=
  match s.mem.fetchByte offset with
  | .ok b => k b
  | .error f => raise f s

/-- Write the port at `offset` and go on with the new state; on the bounds error raise its fault in the state reached so
far, whose earlier writes stand. -/
def portWrite (offset : Nat) (v : Byte) (s : State) (k : State → Result) : Result :=
  match s.mem.setByte offset v with
  | .ok m => k (s.setMem m)
  | .error f => raise f s

/-- `MemRead(addr, 1)` (R60). -/
def memRead (a : Word) (s : State) (k : Byte → Result) : Result := portRead a.toNat s k

/-- `MemRead(addr, 2)`: low byte at `addr` first, then the high byte at `addr +_16 1` (R53; the wrap is D3, log 3). -/
def memRead2 (a : Word) (s : State) (k : Word → Result) : Result :=
  memRead a s fun lo => memRead (a + 1) s fun hi => k (wordOf hi lo)

/-- `MemWrite(addr, 1, v)` (R62). -/
def memWrite (a : Word) (v : Byte) (s : State) (k : State → Result) : Result := portWrite a.toNat v s k

/-! ### The end of an instruction -/

/-- `pc <- pc +_16 len` (40_decoder_sequencer.md R120; the wrap is D3, log 3). -/
def advance (len : Word) (s : State) : Result := .next (s.setPc (s.pc + len))

end Sys2Proof.Machine
end

