-- ==== Sys2Proof/Machine/Flags.lean ====
section
/-! DEFINITION. Machine/Flags.lean: every flag computation of 41_alu.md section 1, and the status byte of 10_state.md R34. -/

namespace Sys2Proof.Machine

/-! ### Rules over a 16-bit result -/

/-- The number of one bits among the `n` lowest bits of `r`. -/
def onesBelow (r : Word) : Nat → Nat
  | 0 => 0
  | n + 1 => (if r.getLsbD n then 1 else 0) + onesBelow r n

/-- `popcount(r)`, over all 16 bits. -/
def popcount (r : Word) : Nat := onesBelow r 16

/-- `zero(r) = (r[7:0] == 0)` (R140). -/
def zeroRule (r : Word) : Bool := loByte r == 0

/-- `sign(r) = (r[7] == 1)` (R141). -/
def signRule (r : Word) : Bool := r.getLsbD 7

/-- `parity(r) = (popcount(r) mod 2 == 0)`, over all 16 bits (R142; the width is the spec's decision D6, log 6). -/
def parityRule (r : Word) : Bool := popcount r % 2 == 0

/-- `carry(r) = (r > 0xFF)` (R143). -/
def carryRule (r : Word) : Bool := decide (0xFF < r.toNat)

/-- `set_all(r)`: zero, sign, parity, carry; auxiliary carry held (R144). -/
def setAll (r : Word) (f : Flags) : Flags :=
  { f with z := zeroRule r, s := signRule r, p := parityRule r, cy := carryRule r }

/-- `set_single_registry_operation_flags(r)`: zero, sign, parity; carry and auxiliary carry held (R145). -/
def setSzp (r : Word) (f : Flags) : Flags :=
  { f with z := zeroRule r, s := signRule r, p := parityRule r }

/-- `carry16(x, y)`: "carry true iff the 32-bit sum exceeds `0xFFFF`" (R146). -/
def carry16 (x y : Word) : Bool := decide (0xFFFF < (x.setWidth 32 + y.setWidth 32).toNat)

/-! ### The status byte (10_state.md R34) -/

/-- A flag as a number: 1 when true, 0 when false, in the low bit of a byte. -/
def flagBit (b : Bool) : Byte := if b then 1 else 0

/-- The status byte PUSH PSW writes: bit 7 sign, 6 zero, 4 auxiliary carry, 2 parity, 1 fixed to 1, 0 carry. -/
def statusByte (f : Flags) : Byte :=
  flagBit f.s <<< 7 ||| flagBit f.z <<< 6 ||| flagBit f.ac <<< 4 ||| flagBit f.p <<< 2 ||| 0x02 ||| flagBit f.cy

/-- The flags POP PSW rebuilds; bits 5, 3 and 1 are ignored (46_stack.md R239; bit 1 is the spec's decision D16, log 16). -/
def flagsOfStatus (v : Byte) : Flags where
  s := v.getLsbD 7
  z := v.getLsbD 6
  ac := v.getLsbD 4
  p := v.getLsbD 2
  cy := v.getLsbD 0

end Sys2Proof.Machine
end

