-- ==== Sys2Proof/Machine/Operands.lean ====
section
/-! DEFINITION. Machine/Operands.lean: reaching an operand by selector (40_decoder_sequencer.md R125, R126) and by pair. -/

namespace Sys2Proof.Machine

/-- The address of the selector value 6: HL at the time of the access (R125, R126). -/
def hlAddr (s : State) : Word := s.pair .HL

/-- `operand(s)`: the named register, or the byte at address HL (R125). -/
def operand (o : Operand) (s : State) (k : Byte → Result) : Result :=
  match o with
  | .reg r => k (s.reg r)
  | .mem => memRead (hlAddr s) s k

/-- `store(s, v)`: the named register, or the cell at address HL (R126). -/
def store (o : Operand) (v : Byte) (s : State) (k : State → Result) : Result :=
  match o with
  | .reg r => k (s.setReg r v)
  | .mem => memWrite (hlAddr s) v s k

/-- The value of DAD's and INX's operand: a pair or sp (30_encoding.md R91). -/
def pairOrSp (y : PairOrSp) (s : State) : Word :=
  match y with
  | .pair p => s.pair p
  | .sp => s.sp

/-- The state with DAD's and INX's operand replaced. -/
def setPairOrSp (y : PairOrSp) (v : Word) (s : State) : State :=
  match y with
  | .pair p => s.setPair p v
  | .sp => s.setSp v

end Sys2Proof.Machine
end

