-- ==== Sys2Proof/Machine/Alu.lean ====
section
/-! DEFINITION. Machine/Alu.lean: the arithmetic/logical core and its sixteen instructions (41_alu.md sections 2 to 4). -/

namespace Sys2Proof.Machine

/-! ### The core: the 16-bit result of each operation on the accumulator `a` and the operand `v` -/

/-- The carry-in as a 16-bit number. -/
def carryIn (b : Bool) : Word := if b then 1 else 0

/-- "16-bit sum `acc + value + carry_in`" (R147). -/
def addResult (a v : Byte) (cin : Bool) : Word := a.setWidth 16 + v.setWidth 16 + carryIn cin

/-- `acc − (value + carry_in)`, 16-bit wrapping; the inner sum is formed at 16 bits (R148; the spec's decision D18,
log 18). -/
def subResult (a v : Byte) (cin : Bool) : Word := a.setWidth 16 - (v.setWidth 16 + carryIn cin)

/-- R149, and. -/
def andResult (a v : Byte) : Word := a.setWidth 16 &&& v.setWidth 16

/-- R149, or. -/
def orResult (a v : Byte) : Word := a.setWidth 16 ||| v.setWidth 16

/-- R149, xor. -/
def xorResult (a v : Byte) : Word := a.setWidth 16 ^^^ v.setWidth 16

/-- `set_all(r) ; A <- r[7:0]`. -/
def accumulate (r : Word) (s : State) : State := (s.setFlags (setAll r s.flags)).setReg .A (loByte r)

/-- `set_all(r)`, the result discarded (R158). -/
def compareOnly (r : Word) (s : State) : State := s.setFlags (setAll r s.flags)

/-! ### The operations on a byte -/

/-- R147. -/
def aluAdd (v : Byte) (cin : Bool) (s : State) : State := accumulate (addResult (s.reg .A) v cin) s

/-- R148. -/
def aluSub (v : Byte) (cin : Bool) (s : State) : State := accumulate (subResult (s.reg .A) v cin) s

/-- R149. -/
def aluAnd (v : Byte) (s : State) : State := accumulate (andResult (s.reg .A) v) s

/-- R149. -/
def aluOr (v : Byte) (s : State) : State := accumulate (orResult (s.reg .A) v) s

/-- R149. -/
def aluXor (v : Byte) (s : State) : State := accumulate (xorResult (s.reg .A) v) s

/-- R158: no carry-in, whatever `F.cy` holds (the spec's decision D18, log 18). -/
def aluCmp (v : Byte) (s : State) : State := compareOnly (subResult (s.reg .A) v false) s

/-! ### Register/memory forms -/

/-- R150. -/
def execAdd (o : Operand) (s : State) : Result := operand o s fun v => advance 1 (aluAdd v false s)

/-- R151. -/
def execAdc (o : Operand) (s : State) : Result := operand o s fun v => advance 1 (aluAdd v s.flags.cy s)

/-- R152. -/
def execSub (o : Operand) (s : State) : Result := operand o s fun v => advance 1 (aluSub v false s)

/-- R153. -/
def execSbb (o : Operand) (s : State) : Result := operand o s fun v => advance 1 (aluSub v s.flags.cy s)

/-- R154. -/
def execAna (o : Operand) (s : State) : Result := operand o s fun v => advance 1 (aluAnd v s)

/-- R155. -/
def execXra (o : Operand) (s : State) : Result := operand o s fun v => advance 1 (aluXor v s)

/-- R156. -/
def execOra (o : Operand) (s : State) : Result := operand o s fun v => advance 1 (aluOr v s)

/-- R157. -/
def execCmp (o : Operand) (s : State) : Result := operand o s fun v => advance 1 (aluCmp v s)

/-! ### Immediate forms -/

/-- R160. -/
def execAdi (d8 : Byte) (s : State) : Result := advance 2 (aluAdd d8 false s)

/-- R161. -/
def execAci (d8 : Byte) (s : State) : Result := advance 2 (aluAdd d8 s.flags.cy s)

/-- R162. -/
def execSui (d8 : Byte) (s : State) : Result := advance 2 (aluSub d8 false s)

/-- R163. -/
def execSbi (d8 : Byte) (s : State) : Result := advance 2 (aluSub d8 s.flags.cy s)

/-- R164. -/
def execAni (d8 : Byte) (s : State) : Result := advance 2 (aluAnd d8 s)

/-- R165. -/
def execXri (d8 : Byte) (s : State) : Result := advance 2 (aluXor d8 s)

/-- R166. -/
def execOri (d8 : Byte) (s : State) : Result := advance 2 (aluOr d8 s)

/-- R167. -/
def execCpi (d8 : Byte) (s : State) : Result := advance 2 (aluCmp d8 s)

end Sys2Proof.Machine
end

