-- ==== Sys2Proof/Machine/Control.lean ====
section
/-! DEFINITION. Machine/Control.lean: NOP, STC, CMC, HLT (42_control.md). -/

namespace Sys2Proof.Machine

/-- R171. -/
def execNop (s : State) : Result := advance 1 s

/-- R172: carry true, the other flags held. -/
def execStc (s : State) : Result := advance 1 (s.setCarry true)

/-- R173: carry inverted, the other flags held. -/
def execCmc (s : State) : Result := advance 1 (s.setCarry (!s.flags.cy))

/-- R174: `run_state <- HALTED`; pc keeps the address of the byte (the spec's decision D10, log 10). -/
def execHlt (s : State) : Result := .next (s.setRunState .halted)

end Sys2Proof.Machine
end

