-- ==== Sys2Proof/Machine/Illegal.lean ====
section
/-! DEFINITION. Machine/Illegal.lean: the fatal rows (30_encoding.md R97, R98). Each raises its fault with the opcode byte
and its address, and changes nothing else (60_exceptions.md R250, R255, R256; the unchanged state is D11, log 11). Which of
the two names a byte gets is the spec's decision D9 (log 9). -/

namespace Sys2Proof.Machine

/-- `raise UnrecognizedSubOperation(op, pc)` (40_decoder_sequencer.md R119). -/
def raiseSubOperation (op : Byte) (s : State) : Result := raise (.unrecognizedSubOperation op s.pc) s

/-- `raise UnrecognizedOpcode(op, pc)` (40_decoder_sequencer.md R118 row 13). -/
def raiseOpcode (op : Byte) (s : State) : Result := raise (.unrecognizedOpcode op s.pc) s

/-- Rotate selectors 2 to 5 (30_encoding.md R93). -/
def execIllegalS07 (f : BitVec 3) (s : State) : Result := raiseSubOperation (opcode 0 f 7) s

/-- (0, 1) with `fst[0] = 0` (30_encoding.md R91). -/
def execIllegalS01 (p : BitVec 2) (s : State) : Result := raiseSubOperation (pairOpcode 0 p 0 1) s

/-- (0, 3) with `fst[0] = 1` (30_encoding.md R91). -/
def execIllegalS03 (p : BitVec 2) (s : State) : Result := raiseSubOperation (pairOpcode 0 p 1 3) s

/-- (0, 0), not NOP (30_encoding.md R94). -/
def execIllegalS00 (f : BitVec 3) (s : State) : Result := raiseSubOperation (opcode 0 f 0) s

/-- (0, 2), not an exact match (30_encoding.md R94). -/
def execIllegalS02 (f : BitVec 3) (s : State) : Result := raiseSubOperation (opcode 0 f 2) s

/-- (3, 5) with `fst[0] = 1` (30_encoding.md R91). -/
def execIllegalS35 (p : BitVec 2) (s : State) : Result := raiseSubOperation (pairOpcode 3 p 1 5) s

/-- (3, 1) with `fst[0] = 1` (30_encoding.md R91). -/
def execIllegalS31 (p : BitVec 2) (s : State) : Result := raiseSubOperation (pairOpcode 3 p 1 1) s

/-- (3, 0) (30_encoding.md R98). -/
def execIllegalU30 (f : BitVec 3) (s : State) : Result := raiseOpcode (opcode 3 f 0) s

/-- (3, 4) (30_encoding.md R98). -/
def execIllegalU34 (f : BitVec 3) (s : State) : Result := raiseOpcode (opcode 3 f 4) s

/-- (3, 7) (30_encoding.md R98). -/
def execIllegalU37 (f : BitVec 3) (s : State) : Result := raiseOpcode (opcode 3 f 7) s

/-- (3, 3), neither JMP nor XCHG (30_encoding.md R98). -/
def execIllegalU33 (f : BitVec 3) (s : State) : Result := raiseOpcode (opcode 3 f 3) s

end Sys2Proof.Machine
end

