-- ==== Sys2Proof/Machine/Jump.lean ====
section
/-! DEFINITION. Machine/Jump.lean: JMP and the eight conditional jumps (44_jump.md). -/

namespace Sys2Proof.Machine

/-- The family's body: a taken jump lands at `a16 +_16 1`, one not taken at `pc +_16 3` (R200, R201). -/
def jump (taken : Bool) (a16 : Word) (s : State) : Result :=
  if taken then .next (s.setPc (a16 + 1)) else advance 3 s

/-- R202. -/
def execJmp (a16 : Word) (s : State) : Result := jump true a16 s

/-- R203: not-zero. -/
def execJnz (a16 : Word) (s : State) : Result := jump (!s.flags.z) a16 s

/-- R204: zero. -/
def execJz (a16 : Word) (s : State) : Result := jump s.flags.z a16 s

/-- R205: no-carry. -/
def execJnc (a16 : Word) (s : State) : Result := jump (!s.flags.cy) a16 s

/-- R206: carry. -/
def execJc (a16 : Word) (s : State) : Result := jump s.flags.cy a16 s

/-- R207: no-parity. -/
def execJpo (a16 : Word) (s : State) : Result := jump (!s.flags.p) a16 s

/-- R208: parity. -/
def execJpe (a16 : Word) (s : State) : Result := jump s.flags.p a16 s

/-- R209: no-sign. -/
def execJp (a16 : Word) (s : State) : Result := jump (!s.flags.s) a16 s

/-- R210: sign. -/
def execJm (a16 : Word) (s : State) : Result := jump s.flags.s a16 s

end Sys2Proof.Machine
end

