-- ==== Sys2Proof/Machine/SingleOperand.lean ====
section
/-! DEFINITION. Machine/SingleOperand.lean: INR, DCR, RLC, RRC, DAD, INX (45_single_operand.md). -/

namespace Sys2Proof.Machine

/-- Replace the byte `v` of the place `o` by `f v` and set zero, sign, parity from that 8-bit wrapped byte, zero-extended
(R216 to R219; the width is the spec's decision D7, log 7). -/
def update (f : Byte → Byte) (o : Operand) (s : State) : Result :=
  operand o s fun v => store o (f v) s fun t => advance 1 (t.setFlags (setSzp ((f v).setWidth 16) t.flags))

/-- `v +_8 1`. -/
def increment (v : Byte) : Byte := v + 1

/-- `v -_8 1`. -/
def decrement (v : Byte) : Byte := v - 1

/-- R217. -/
def execInrM (s : State) : Result := update increment .mem s

/-- R216. -/
def execInrR (d : Reg) (s : State) : Result := update increment (.reg d) s

/-- R219. -/
def execDcrM (s : State) : Result := update decrement .mem s

/-- R218. -/
def execDcrR (d : Reg) (s : State) : Result := update decrement (.reg d) s

/-- `{A[6:0], A[7]}` (R220). -/
def rotatedLeft (a : Byte) : Byte := a.extractLsb' 0 7 ++ a.extractLsb' 7 1

/-- `{A[0], A[7:1]}` (R221). -/
def rotatedRight (a : Byte) : Byte := a.extractLsb' 0 1 ++ a.extractLsb' 1 7

/-- Replace A by `v` and carry by `out`, the bit that left; the other flags hold. -/
def rotate (v : Byte) (out : Bool) (s : State) : Result := advance 1 ((s.setReg .A v).setCarry out)

/-- R220. -/
def execRlc (s : State) : Result := rotate (rotatedLeft (s.reg .A)) ((s.reg .A).getLsbD 7) s

/-- R221. -/
def execRrc (s : State) : Result := rotate (rotatedRight (s.reg .A)) ((s.reg .A).getLsbD 0) s

/-- R222: `F.cy <- carry16(HL, y) ; HL <- HL +_16 y`, both from the values before the instruction. -/
def execDad (y : PairOrSp) (s : State) : Result :=
  advance 1 ((s.setCarry (carry16 (s.pair .HL) (pairOrSp y s))).setPair .HL (s.pair .HL + pairOrSp y s))

/-- R223. -/
def execInx (y : PairOrSp) (s : State) : Result := advance 1 (setPairOrSp y (pairOrSp y s + 1) s)

end Sys2Proof.Machine
end

