-- ==== Sys2Proof/Machine/Stack.lean ====
section
/-! DEFINITION. Machine/Stack.lean: PUSH and POP (46_stack.md). -/

namespace Sys2Proof.Machine

/-- Write `hi` at `sp -_16 1`, then `lo` at `sp -_16 2`, and lower sp by 2 (R236, R237). -/
def push (hi lo : Byte) (s : State) : Result :=
  memWrite (s.sp - 1) hi s fun t => memWrite (s.sp - 2) lo t fun u => advance 1 (u.setSp (s.sp - 2))

/-- Read the 16-bit value at sp, low byte first, hand it to `put`, and raise sp by 2 (R238, R239). -/
def pop (put : Word → State → State) (s : State) : Result :=
  memRead2 s.sp s fun v => advance 1 ((put v s).setSp (s.sp + 2))

/-- R237: the accumulator is the high byte, the status byte the low one. -/
def execPushPsw (s : State) : Result := push (s.reg .A) (statusByte s.flags) s

/-- R236. -/
def execPushRp (p : RegPair) (s : State) : Result := push (s.reg (hiReg p)) (s.reg (loReg p)) s

/-- R239: the flags from the byte at sp, the accumulator from the byte above it (90_conflicts.md C2, log 26). -/
def execPopPsw (s : State) : Result :=
  pop (fun v t => (t.setFlags (flagsOfStatus (loByte v))).setReg .A (hiByte v)) s

/-- R238. -/
def execPopRp (p : RegPair) (s : State) : Result := pop (fun v t => t.setPair p v) s

end Sys2Proof.Machine
end

