-- ==== Sys2Proof/Machine/Transfer.lean ====
section
/-! DEFINITION. Machine/Transfer.lean: LDAX, STA, LDA, XCHG, MVI, MOV (43_transfer.md). -/

namespace Sys2Proof.Machine

/-- `A <- MemRead(a, 1)`, then the advance: the accumulator loads. -/
def loadA (a : Word) (len : Word) (s : State) : Result :=
  memRead a s fun v => advance len (s.setReg .A v)

/-- R184, opcode 0x0A: through DE (90_conflicts.md C5, log 25). -/
def execLdaxB (s : State) : Result := loadA (s.pair .DE) 1 s

/-- R185, opcode 0x1A: through BC (90_conflicts.md C5, log 25). -/
def execLdaxD (s : State) : Result := loadA (s.pair .BC) 1 s

/-- R187. -/
def execSta (a16 : Word) (s : State) : Result := memWrite a16 (s.reg .A) s (advance 3)

/-- R186. -/
def execLda (a16 : Word) (s : State) : Result := loadA a16 3 s

/-- R188: `t <- DE ; DE <- HL ; HL <- t`. -/
def execXchg (s : State) : Result := advance 1 ((s.setPair .DE (s.pair .HL)).setPair .HL (s.pair .DE))

/-- R183. -/
def execMviM (d8 : Byte) (s : State) : Result := store .mem d8 s (advance 2)

/-- R182. -/
def execMviR (d : Reg) (d8 : Byte) (s : State) : Result := store (.reg d) d8 s (advance 2)

/-- The transfer family's body: read the source, then write the destination (43_transfer.md section 1). -/
def move (dst src : Operand) (s : State) : Result :=
  operand src s fun v => store dst v s (advance 1)

/-- R189. -/
def execMovMR (r : Reg) (s : State) : Result := move .mem (.reg r) s

/-- R181. -/
def execMovRM (d : Reg) (s : State) : Result := move (.reg d) .mem s

/-- R180. -/
def execMovRR (d r : Reg) (s : State) : Result := move (.reg d) (.reg r) s

end Sys2Proof.Machine
end

