-- ==== Sys2Proof/Machine/Dispatch.lean ====
section
/-! DEFINITION. Machine/Dispatch.lean: the meaning of every instruction, one arm per constructor. -/

namespace Sys2Proof.Machine

def exec (i : Instr) (s : State) : Host.Outcome State Fault Refusal :=
  match i with
  | .nop => Sys2Proof.Machine.execNop s
  | .stc => Sys2Proof.Machine.execStc s
  | .cmc => Sys2Proof.Machine.execCmc s
  | .hlt => Sys2Proof.Machine.execHlt s
  | .ldaxB => Sys2Proof.Machine.execLdaxB s
  | .ldaxD => Sys2Proof.Machine.execLdaxD s
  | .sta a16 => Sys2Proof.Machine.execSta a16 s
  | .lda a16 => Sys2Proof.Machine.execLda a16 s
  | .xchg => Sys2Proof.Machine.execXchg s
  | .jmp a16 => Sys2Proof.Machine.execJmp a16 s
  | .jnz a16 => Sys2Proof.Machine.execJnz a16 s
  | .jz a16 => Sys2Proof.Machine.execJz a16 s
  | .jnc a16 => Sys2Proof.Machine.execJnc a16 s
  | .jc a16 => Sys2Proof.Machine.execJc a16 s
  | .jpo a16 => Sys2Proof.Machine.execJpo a16 s
  | .jpe a16 => Sys2Proof.Machine.execJpe a16 s
  | .jp a16 => Sys2Proof.Machine.execJp a16 s
  | .jm a16 => Sys2Proof.Machine.execJm a16 s
  | .inrM => Sys2Proof.Machine.execInrM s
  | .inrR d => Sys2Proof.Machine.execInrR d s
  | .dcrM => Sys2Proof.Machine.execDcrM s
  | .dcrR d => Sys2Proof.Machine.execDcrR d s
  | .rlc => Sys2Proof.Machine.execRlc s
  | .rrc => Sys2Proof.Machine.execRrc s
  | .dad y => Sys2Proof.Machine.execDad y s
  | .inx y => Sys2Proof.Machine.execInx y s
  | .pushPsw => Sys2Proof.Machine.execPushPsw s
  | .pushRp p => Sys2Proof.Machine.execPushRp p s
  | .popPsw => Sys2Proof.Machine.execPopPsw s
  | .popRp p => Sys2Proof.Machine.execPopRp p s
  | .mviM d8 => Sys2Proof.Machine.execMviM d8 s
  | .mviR d d8 => Sys2Proof.Machine.execMviR d d8 s
  | .adi d8 => Sys2Proof.Machine.execAdi d8 s
  | .aci d8 => Sys2Proof.Machine.execAci d8 s
  | .sui d8 => Sys2Proof.Machine.execSui d8 s
  | .sbi d8 => Sys2Proof.Machine.execSbi d8 s
  | .ani d8 => Sys2Proof.Machine.execAni d8 s
  | .xri d8 => Sys2Proof.Machine.execXri d8 s
  | .ori d8 => Sys2Proof.Machine.execOri d8 s
  | .cpi d8 => Sys2Proof.Machine.execCpi d8 s
  | .illegalS07 f => Sys2Proof.Machine.execIllegalS07 f s
  | .illegalS01 p => Sys2Proof.Machine.execIllegalS01 p s
  | .illegalS03 p => Sys2Proof.Machine.execIllegalS03 p s
  | .illegalS00 f => Sys2Proof.Machine.execIllegalS00 f s
  | .illegalS02 f => Sys2Proof.Machine.execIllegalS02 f s
  | .illegalS35 p => Sys2Proof.Machine.execIllegalS35 p s
  | .illegalS31 p => Sys2Proof.Machine.execIllegalS31 p s
  | .movMR r => Sys2Proof.Machine.execMovMR r s
  | .movRM d => Sys2Proof.Machine.execMovRM d s
  | .movRR d r => Sys2Proof.Machine.execMovRR d r s
  | .add o => Sys2Proof.Machine.execAdd o s
  | .adc o => Sys2Proof.Machine.execAdc o s
  | .sub o => Sys2Proof.Machine.execSub o s
  | .sbb o => Sys2Proof.Machine.execSbb o s
  | .ana o => Sys2Proof.Machine.execAna o s
  | .xra o => Sys2Proof.Machine.execXra o s
  | .ora o => Sys2Proof.Machine.execOra o s
  | .cmp o => Sys2Proof.Machine.execCmp o s
  | .illegalU30 f => Sys2Proof.Machine.execIllegalU30 f s
  | .illegalU34 f => Sys2Proof.Machine.execIllegalU34 f s
  | .illegalU37 f => Sys2Proof.Machine.execIllegalU37 f s
  | .illegalU33 f => Sys2Proof.Machine.execIllegalU33 f s

end Sys2Proof.Machine
end

