-- ==== Sys2Proof/Machine/Fetch.lean ====
section
/-! DEFINITION. Machine/Fetch.lean: fetching an instruction (40_decoder_sequencer.md R116, R123), and placing one for the
host's checks. -/

namespace Sys2Proof.Machine

/-- Read the opcode byte at pc, then as many operand bytes as it has, in rising order, and go on with the instruction they
stand for (20_memory.md R72). A fatal byte reads no operand byte (40_decoder_sequencer.md R123). -/
def fetchInstr (s : State) (k : Instr → Result) : Result :=
  memRead s.pc s fun op =>
    match operandCount op with
    | 0 => k (decodeWith op 0 0)
    | 1 => memRead (s.pc + 1) s fun b1 => k (decodeWith op b1 0)
    | _ => memRead (s.pc + 1) s fun b1 => memRead (s.pc + 2) s fun b2 => k (decodeWith op b1 b2)

/-- `pc >= IMAGE_LEN`: only the opcode's address is tested (40_decoder_sequencer.md R117; the spec's decision D12,
log 12). -/
def pastImage (s : State) : Bool := decide (s.imageLen ≤ s.pc.toNat)

/-- Place bytes from address `a` up, wrapping. -/
def placeBytes (a : Word) : List Byte → State → State
  | [], s => s
  | b :: bs, s => placeBytes (a + 1) bs (s.setByteAt a b)

/-- What a fetch at pc needs besides the bytes: a RUNNING machine, and an image that reaches past pc (R116, R117). -/
def enableFetch (s : State) : State :=
  { s with runState := .running, imageLen := max s.imageLen (s.pc.toNat + 1) }

end Sys2Proof.Machine
end

