-- ==== Sys2Proof/Machine/Step.lean ====
section
/-! DEFINITION. Machine/Step.lean: one cycle of the Execution Engine (40_decoder_sequencer.md R116). -/

namespace Sys2Proof.Machine

/-- One cycle if the machine is RUNNING, and nothing otherwise (70_reset_and_hazards.md R284, log 28). At the end of the
image the run ENDS before any fetch (R117); else the instruction at pc is fetched and run, and writes pc itself (R120 to
R122). -/
def step (s : State) : Host.Outcome State Fault Refusal :=
  match s.runState with
  | .running => if pastImage s then .next (s.setRunState .ended) else fetchInstr s fun i => exec i s
  | .halted => .next s
  | .ended => .next s
  | .faulted _ => .next s

/-- The state with the instruction of a table word stored at pc and the fetch at pc enabled, so that the next step runs
exactly it (log 24). -/
def State.withFetchWord (s : State) (nbits w : Nat) : State :=
  enableFetch (placeBytes s.pc (tableBytes nbits w) s)

end Sys2Proof.Machine
end

