-- ==== Sys2Proof/Machine/HostPort.lean ====
section
/-! DEFINITION. Machine/HostPort.lean: what the host can do to the machine (70_reset_and_hazards.md R280 to R287). The
transaction `step` is `Machine.step`, and `observe` is reading the fields of `State`. -/

namespace Sys2Proof.Machine

/-- The cells of an image loaded from address `a` up; bytes that read as if unlisted are not listed. -/
def cellsFrom (a : Nat) : List Byte → List Host.Cell
  | [] => []
  | b :: bs => if b = Config.coldByte then cellsFrom (a + 1) bs else (a, b) :: cellsFrom (a + 1) bs

/-- Zeroed memory with the image at offset 0 (20_memory.md R65). -/
def Memory.ofImage (image : List Byte) : Memory := { cells := cellsFrom 0 image }

/-- Construct the machine on an image: memory zeroed, the image loaded, IMAGE_LEN fixed as its length, everything else at
its reset value (R280, R281). An image longer than memory is refused (20_memory.md R65, log 23). -/
def State.construct (image : List Byte) : Result :=
  if image.length ≤ Config.memSize then
    .next { State.reset with mem := Memory.ofImage image, imageLen := image.length }
  else .refused (.imageTooLong image.length)

/-- What the host may write before the first cycle (R286). -/
structure Preset where
  regs : Regs
  flags : Flags
  pc : Word
  sp : Word
  deriving DecidableEq, Repr

/-- The state with the host's preset (R286). That it happens before the first cycle only is the host's part (log 27). -/
def State.preset (s : State) (w : Preset) : State :=
  { s with regs := w.regs, flags := w.flags, pc := w.pc, sp := w.sp }

/-- The machine is RUNNING. -/
def State.isRunning (s : State) : Bool := decide (s.runState = .running)

/-- `run`, cut off after `n` cycles: cycles until run_state is not RUNNING (R283, 40_decoder_sequencer.md R127). A run need
not end, so the number of cycles is given. -/
def run : Nat → State → Result
  | 0, s => .next s
  | n + 1, s =>
    if s.isRunning then
      match step s with
      | .next t => run n t
      | .fault f => .fault f
      | .refused r => .refused r
    else .next s

/-- HALTED and ENDED are successful ends, FAULTED a failed one (R287). -/
def State.endedWell (s : State) : Bool := decide (s.runState = .halted) || decide (s.runState = .ended)

end Sys2Proof.Machine
end

