-- ==== Sys2Proof/Safety.lean ====
section
/-! DEFINITION. Safety.lean: the terms the statements use: what every instruction may write, as the spec's summary tables
give it, independent of the meanings; what "unchanged" means; the invariants. -/

namespace Sys2Proof.Machine

/-! ### What an instruction may write -/

/-- The eleven fatal rows (30_encoding.md R97, R98). -/
def fatal : Instr → Bool
  | .illegalS07 _ | .illegalS01 _ | .illegalS03 _ | .illegalS00 _ | .illegalS02 _ | .illegalS35 _ => true
  | .illegalS31 _ => true
  | .illegalU30 _ | .illegalU34 _ | .illegalU37 _ | .illegalU33 _ => true
  | .nop | .stc | .cmc | .hlt | .ldaxB | .ldaxD | .sta _ | .lda _ | .xchg | .jmp _ | .jnz _ | .jz _ => false
  | .jnc _ | .jc _ | .jpo _ | .jpe _ | .jp _ | .jm _ | .inrM | .inrR _ | .dcrM | .dcrR _ | .rlc | .rrc => false
  | .dad _ | .inx _ | .pushPsw | .pushRp _ | .popPsw | .popRp _ | .mviM _ | .mviR _ _ | .adi _ | .aci _ => false
  | .sui _ | .sbi _ | .ani _ | .xri _ | .ori _ | .cpi _ | .movMR _ | .movRM _ | .movRR _ _ | .add _ => false
  | .adc _ | .sub _ | .sbb _ | .ana _ | .xra _ | .ora _ | .cmp _ => false

/-- The fatal rows of cause 2 (60_exceptions.md R252). -/
def fatalInFamily : Instr → Bool
  | .illegalS07 _ | .illegalS01 _ | .illegalS03 _ | .illegalS00 _ | .illegalS02 _ | .illegalS35 _ => true
  | .illegalS31 _ => true
  | .nop | .stc | .cmc | .hlt | .ldaxB | .ldaxD | .sta _ | .lda _ | .xchg | .jmp _ | .jnz _ | .jz _ => false
  | .jnc _ | .jc _ | .jpo _ | .jpe _ | .jp _ | .jm _ | .inrM | .inrR _ | .dcrM | .dcrR _ | .rlc | .rrc => false
  | .dad _ | .inx _ | .pushPsw | .pushRp _ | .popPsw | .popRp _ | .mviM _ | .mviR _ _ | .adi _ | .aci _ => false
  | .sui _ | .sbi _ | .ani _ | .xri _ | .ori _ | .cpi _ | .movMR _ | .movRM _ | .movRR _ _ | .add _ => false
  | .adc _ | .sub _ | .sbb _ | .ana _ | .xra _ | .ora _ | .cmp _ | .illegalU30 _ | .illegalU34 _ => false
  | .illegalU37 _ | .illegalU33 _ => false

/-- The two cells of a pair. -/
def pairRegs (p : RegPair) : List Reg := [hiReg p, loReg p]

/-- "written by", 10_state.md R22. -/
def regsWritten : Instr → List Reg
  | .ldaxB | .ldaxD | .lda _ | .rlc | .rrc | .popPsw => [.A]
  | .adi _ | .aci _ | .sui _ | .sbi _ | .ani _ | .xri _ | .ori _ => [.A]
  | .add _ | .adc _ | .sub _ | .sbb _ | .ana _ | .xra _ | .ora _ => [.A]
  | .xchg => [.D, .E, .H, .L]
  | .inrR d | .dcrR d | .mviR d _ | .movRM d | .movRR d _ => [d]
  | .dad _ => [.H, .L]
  | .inx (.pair p) | .popRp p => pairRegs p
  | .inx .sp => []
  | .nop | .stc | .cmc | .hlt | .sta _ | .jmp _ | .jnz _ | .jz _ | .jnc _ | .jc _ | .jpo _ | .jpe _ | .jp _ => []
  | .jm _ | .inrM | .dcrM | .pushPsw | .pushRp _ | .mviM _ | .cpi _ | .illegalS07 _ | .illegalS01 _ => []
  | .illegalS03 _ | .illegalS00 _ | .illegalS02 _ | .illegalS35 _ | .illegalS31 _ | .movMR _ | .cmp _ => []
  | .illegalU30 _ | .illegalU34 _ | .illegalU37 _ | .illegalU33 _ => []

/-- The five flags by name (10_state.md R29). -/
inductive FlagName where
  | z | s | p | cy | ac
  deriving DecidableEq, Repr

/-- The flag of that name. -/
def Flags.get (f : Flags) : FlagName → Bool
  | .z => f.z
  | .s => f.s
  | .p => f.p
  | .cy => f.cy
  | .ac => f.ac

/-- "written by", 10_state.md R30. -/
def flagsWritten : Instr → List FlagName
  | .adi _ | .aci _ | .sui _ | .sbi _ | .ani _ | .xri _ | .ori _ | .cpi _ => [.z, .s, .p, .cy]
  | .add _ | .adc _ | .sub _ | .sbb _ | .ana _ | .xra _ | .ora _ | .cmp _ => [.z, .s, .p, .cy]
  | .inrM | .inrR _ | .dcrM | .dcrR _ => [.z, .s, .p]
  | .stc | .cmc | .rlc | .rrc | .dad _ => [.cy]
  | .popPsw => [.z, .s, .p, .cy, .ac]
  | .nop | .hlt | .ldaxB | .ldaxD | .sta _ | .lda _ | .xchg | .jmp _ | .jnz _ | .jz _ | .jnc _ | .jc _ => []
  | .jpo _ | .jpe _ | .jp _ | .jm _ | .inx _ | .pushPsw | .pushRp _ | .popRp _ | .mviM _ | .mviR _ _ => []
  | .illegalS07 _ | .illegalS01 _ | .illegalS03 _ | .illegalS00 _ | .illegalS02 _ | .illegalS35 _ => []
  | .illegalS31 _ | .movMR _ | .movRM _ | .movRR _ _ | .illegalU30 _ | .illegalU34 _ | .illegalU37 _ => []
  | .illegalU33 _ => []

/-- The bytes an instruction stores from state `s`, each with its address, by the expressions the meanings use (20_memory.md
R51, "data write"; the bytes by the instructions' rules). -/
def storedBytes (i : Instr) (s : State) : List (Word × Byte) :=
  match i with
  | .movMR r => [(hlAddr s, s.reg r)]
  | .mviM d8 => [(hlAddr s, d8)]
  | .inrM => [(hlAddr s, s.byteAt (hlAddr s) + 1)]
  | .dcrM => [(hlAddr s, s.byteAt (hlAddr s) - 1)]
  | .sta a16 => [(a16, s.reg .A)]
  | .pushPsw => [(s.sp - 1, s.reg .A), (s.sp - 2, statusByte s.flags)]
  | .pushRp p => [(s.sp - 1, s.reg (hiReg p)), (s.sp - 2, s.reg (loReg p))]
  | .nop | .stc | .cmc | .hlt | .ldaxB | .ldaxD | .lda _ | .xchg | .jmp _ | .jnz _ | .jz _ | .jnc _ | .jc _ => []
  | .jpo _ | .jpe _ | .jp _ | .jm _ | .inrR _ | .dcrR _ | .rlc | .rrc | .dad _ | .inx _ | .popPsw => []
  | .popRp _ | .mviR _ _ | .adi _ | .aci _ | .sui _ | .sbi _ | .ani _ | .xri _ | .ori _ | .cpi _ => []
  | .illegalS07 _ | .illegalS01 _ | .illegalS03 _ | .illegalS00 _ | .illegalS02 _ | .illegalS35 _ => []
  | .illegalS31 _ | .movRM _ | .movRR _ _ | .add _ | .adc _ | .sub _ | .sbb _ | .ana _ | .xra _ | .ora _ => []
  | .cmp _ | .illegalU30 _ | .illegalU34 _ | .illegalU37 _ | .illegalU33 _ => []

/-- The addresses an instruction stores to from state `s`. -/
def storedAt (i : Instr) (s : State) : List Word := (storedBytes i s).map (·.1)

/-- The byte at `a` once `i` has run from state `s`: the byte it stores there, or the one that was there. -/
def byteAfter (i : Instr) (s : State) (a : Word) : Byte := ((storedBytes i s).lookup a).getD (s.byteAt a)

/-- The stack pointer after an instruction (10_state.md R28). -/
def spAfter (i : Instr) (sp : Word) : Word :=
  match i with
  | .pushPsw | .pushRp _ => sp - 2
  | .popPsw | .popRp _ => sp + 2
  | .inx .sp => sp + 1
  | .inx (.pair _) => sp
  | .nop | .stc | .cmc | .hlt | .ldaxB | .ldaxD | .sta _ | .lda _ | .xchg | .jmp _ | .jnz _ | .jz _ => sp
  | .jnc _ | .jc _ | .jpo _ | .jpe _ | .jp _ | .jm _ | .inrM | .inrR _ | .dcrM | .dcrR _ | .rlc | .rrc => sp
  | .dad _ | .mviM _ | .mviR _ _ | .adi _ | .aci _ | .sui _ | .sbi _ | .ani _ | .xri _ | .ori _ | .cpi _ => sp
  | .illegalS07 _ | .illegalS01 _ | .illegalS03 _ | .illegalS00 _ | .illegalS02 _ | .illegalS35 _ => sp
  | .illegalS31 _ | .movMR _ | .movRM _ | .movRR _ _ | .add _ | .adc _ | .sub _ | .sbb _ | .ana _ | .xra _ => sp
  | .ora _ | .cmp _ | .illegalU30 _ | .illegalU34 _ | .illegalU37 _ | .illegalU33 _ => sp

/-- The target of a jump that is taken (30_encoding.md R90). -/
def takenTarget (i : Instr) (f : Flags) : Option Word :=
  match i with
  | .jmp a => some a
  | .jnz a => if f.z then none else some a
  | .jz a => if f.z then some a else none
  | .jnc a => if f.cy then none else some a
  | .jc a => if f.cy then some a else none
  | .jpo a => if f.p then none else some a
  | .jpe a => if f.p then some a else none
  | .jp a => if f.s then none else some a
  | .jm a => if f.s then some a else none
  | .nop | .stc | .cmc | .hlt | .ldaxB | .ldaxD | .sta _ | .lda _ | .xchg | .inrM | .inrR _ | .dcrM => none
  | .dcrR _ | .rlc | .rrc | .dad _ | .inx _ | .pushPsw | .pushRp _ | .popPsw | .popRp _ | .mviM _ => none
  | .mviR _ _ | .adi _ | .aci _ | .sui _ | .sbi _ | .ani _ | .xri _ | .ori _ | .cpi _ | .illegalS07 _ => none
  | .illegalS01 _ | .illegalS03 _ | .illegalS00 _ | .illegalS02 _ | .illegalS35 _ | .illegalS31 _ => none
  | .movMR _ | .movRM _ | .movRR _ _ | .add _ | .adc _ | .sub _ | .sbb _ | .ana _ | .xra _ | .ora _ => none
  | .cmp _ | .illegalU30 _ | .illegalU34 _ | .illegalU37 _ | .illegalU33 _ => none

/-- The program counter after an instruction (40_decoder_sequencer.md R120 to R122; HLT and a fatal row leave it). -/
def pcAfter (i : Instr) (s : State) : Word :=
  if i = .hlt ∨ fatal i = true then s.pc
  else match takenTarget i s.flags with
    | some a => a + 1
    | none => s.pc + BitVec.ofNat 16 i.length

/-- The fault a fatal row raises at `pc` (60_exceptions.md R250 to R252). -/
def faultOf (i : Instr) (pc : Word) : Fault :=
  if fatalInFamily i then .unrecognizedSubOperation ((encode i).headD 0) pc
  else .unrecognizedOpcode ((encode i).headD 0) pc

/-- The run state after an instruction: HLT halts, a fatal row faults, nothing else changes it (60_exceptions.md R254,
R261). -/
def runStateAfter (i : Instr) (s : State) : RunState :=
  if i = .hlt then .halted else if fatal i then .faulted (faultOf i s.pc) else s.runState

/-- `t` has the registers of `s` but for `regs`, the bytes of `s` but for `stores`, and the run state and image length of
`s`. -/
def Leaves (regs : List Reg) (stores : List Word) (s t : State) : Prop :=
  (∀ r, r ∉ regs → t.reg r = s.reg r) ∧ (∀ a, a ∉ stores → t.byteAt a = s.byteAt a) ∧
    t.runState = s.runState ∧ t.imageLen = s.imageLen

/-! ### Results as numbers -/

/-- The byte a source operand holds. -/
def valueOf (o : Operand) (s : State) : Byte :=
  match o with
  | .reg r => s.reg r
  | .mem => s.byteAt (hlAddr s)

/-- How many of the 16 low bits of a number are one. -/
def oneBits (r : Nat) : Nat := ((List.range 16).filter fun k => r.testBit k).length

/-- The four flags of a 16-bit result `r`, auxiliary carry as before (41_alu.md R140 to R144; parity over 16 bits is D6). -/
def FlagsOfResult (r : Nat) (before after : Flags) : Prop :=
  after.z = decide (r % 256 = 0) ∧ after.s = decide (128 ≤ r % 256) ∧ after.p = decide (oneBits r % 2 = 0) ∧
    after.cy = decide (255 < r) ∧ after.ac = before.ac

/-- Zero, sign and parity of an 8-bit result `r`, carry and auxiliary carry as before (41_alu.md R145). -/
def FlagsOfByte (r : Nat) (before after : Flags) : Prop :=
  after.z = decide (r = 0) ∧ after.s = decide (128 ≤ r) ∧ after.p = decide (oneBits r % 2 = 0) ∧
    after.cy = before.cy ∧ after.ac = before.ac

/-! ### Byte lists and runs -/

/-- The 30 bytes of 60_exceptions.md R251. -/
def opcodeFaultBytes : List Byte :=
  [0xC0, 0xC4, 0xC7, 0xC8, 0xCB, 0xCC, 0xCF, 0xD0, 0xD3, 0xD4, 0xD7, 0xD8, 0xDB, 0xDC, 0xDF,
   0xE0, 0xE3, 0xE4, 0xE7, 0xE8, 0xEC, 0xEF, 0xF0, 0xF3, 0xF4, 0xF7, 0xF8, 0xFB, 0xFC, 0xFF]

/-- The 31 bytes of 60_exceptions.md R252. -/
def subOperationFaultBytes : List Byte :=
  [0x01, 0x02, 0x08, 0x0B, 0x10, 0x11, 0x12, 0x17, 0x18, 0x1B, 0x1F, 0x20, 0x21, 0x22, 0x27, 0x28,
   0x2A, 0x2B, 0x2F, 0x30, 0x31, 0x38, 0x3B, 0xC9, 0xCD, 0xD9, 0xDD, 0xE9, 0xED, 0xF9, 0xFD]

/-- The machine will fetch at pc: RUNNING and short of the image's end (40_decoder_sequencer.md R116, R117). -/
def State.fetches (s : State) : Prop := s.runState = .running ∧ s.pc.toNat < s.imageLen

/-- The three bytes from pc up, the longest instruction. -/
def State.bytesAtPc (s : State) : List Byte := [s.byteAt s.pc, s.byteAt (s.pc + 1), s.byteAt (s.pc + 2)]

/-! ### Invariants -/

/-- Memory is in canonical form and the image fits in memory (20_memory.md R65). -/
def State.Inv (s : State) : Prop := s.mem.wf = true ∧ s.imageLen ≤ Config.memSize

/-- A FAULTED machine's record names the byte at pc, which is fatal for the recorded cause (60_exceptions.md R250, R256);
MemoryOutOfBounds is never the cause (20_memory.md R64). -/
def State.FaultRecord (s : State) : Prop :=
  match s.runState with
  | .faulted (.unrecognizedOpcode op pc) => pc = s.pc ∧ op = s.byteAt s.pc ∧ op ∈ opcodeFaultBytes
  | .faulted (.unrecognizedSubOperation op pc) => pc = s.pc ∧ op = s.byteAt s.pc ∧ op ∈ subOperationFaultBytes
  | .faulted (.memoryOutOfBounds _) => False
  | .running | .halted | .ended => True

end Sys2Proof.Machine
end

