-- ==== Sys2Proof/Certificates/Slice0/Obligations.lean ====
section
/-! DEFINITION. Certificates/Slice0/Obligations.lean: the statements about the machine, for the provers. Addition and
subtraction of words wrap, as the spec's `+_16` and `-_16` do; that addresses, pc and sp wrap at all is the spec's decision D3
(log 3), which every statement with a pc, sp or address sum rests on. -/

open Sys2Proof Sys2Proof.Machine

/-! ### Encoding (30_encoding.md) -/

/-- Decoding an encoded well-formed instruction, whatever bytes follow, gives the instruction and those bytes. The selector
and pair tables are the spec's decisions D4 and D5 (logs 4, 5). -/
def Obligations.DecodeOfEncodeGivesInstruction : Prop :=
  ∀ (i : Instr) (rest : List Byte), i.wellFormed = true → decode (encode i ++ rest) = .instr i rest

/-- What the decoder accepts is exactly an encoding: the instruction is well formed, and the bytes read are its bytes. So each
byte string has one meaning, and no bit of an opcode or operand is dropped. The selector and pair tables are the spec's
decisions D4 and D5 (logs 4, 5), the fatal rows D9 (log 9). -/
def Obligations.DecodedBytesAreTheEncoding : Prop :=
  ∀ (bs : List Byte) (i : Instr) (rest : List Byte),
    decode bs = .instr i rest → i.wellFormed = true ∧ bs = encode i ++ rest

/-- Words of every family of the dispatch, written out from the opcode map (30_encoding.md R95) and the formats R81 to R83.
That selector values 2 to 5 and 7 name D, E, H, L and A is the spec's decision D4 (log 4), so for 0x3D, 0x3E, 0x6F and 0x77;
the pair selectors and the fatal siblings of the pair forms are D5 (log 5), so for 0x39, 0x13, 0xF5, 0xE1 and 0xCD; the rows
of the fatal bytes 0xCD and 0xFB are D9 (log 9). -/
def Obligations.OpcodeMapWordsDecode : Prop :=
  decode [0x00] = .instr .nop [] ∧ decode [0x76] = .instr .hlt [] ∧ decode [0x37] = .instr .stc [] ∧
  decode [0x3F] = .instr .cmc [] ∧ decode [0x3A, 0x34, 0x12] = .instr (.lda 0x1234) [] ∧
  decode [0x0A] = .instr .ldaxB [] ∧ decode [0x1A] = .instr .ldaxD [] ∧
  decode [0x32, 0x34, 0x12] = .instr (.sta 0x1234) [] ∧ decode [0xEB] = .instr .xchg [] ∧
  decode [0xC3, 0x03, 0x00] = .instr (.jmp 3) [] ∧ decode [0xC2, 0x10, 0x00] = .instr (.jnz 0x10) [] ∧
  decode [0x34] = .instr .inrM [] ∧ decode [0x04] = .instr (.inrR .B) [] ∧ decode [0x3D] = .instr (.dcrR .A) [] ∧
  decode [0x39] = .instr (.dad .sp) [] ∧ decode [0x13] = .instr (.inx (.pair .DE)) [] ∧
  decode [0xF5] = .instr .pushPsw [] ∧ decode [0xE1] = .instr (.popRp .HL) [] ∧
  decode [0x36, 0x5C] = .instr (.mviM 0x5C) [] ∧ decode [0x3E, 0x2A] = .instr (.mviR .A 0x2A) [] ∧
  decode [0xFE, 0x40] = .instr (.cpi 0x40) [] ∧ decode [0x77] = .instr (.movMR .A) [] ∧
  decode [0x6F] = .instr (.movRR .L .A) [] ∧ decode [0x81] = .instr (.add (.reg .C)) [] ∧
  decode [0xBE] = .instr (.cmp .mem) [] ∧ decode [0xCD] = .instr (.illegalS35 0) [] ∧
  decode [0xFB] = .instr (.illegalU33 7) [] ∧ decode [0x32, 0x34] = .rejected .truncated

/-- The five extractors against the masks and shifts of 40_decoder_sequencer.md section 1; `ju` is the spec's decision D8
(log 8). -/
def Obligations.ExtractorsAreMasksAndShifts : Prop :=
  ∀ op : Byte,
    rps op = decide (op.toNat / 16 % 2 = 1) ∧ (cls op).toNat = op.toNat / 64 ∧ (fst op).toNat = op.toNat / 8 % 8 ∧
    (snd op).toNat = op.toNat % 8 ∧ ju op = decide (op.toNat / 8 % 8 = 0 ∧ op.toNat % 8 = 3)

/-- 195 bytes are implemented instructions; 30 raise UnrecognizedOpcode and 31 UnrecognizedSubOperation (30_encoding.md R96).
Which of the two names a byte gets is the spec's decision D9 (log 9). -/
def Obligations.ImplementedAndFatalByteCounts : Prop :=
  let instrs := (List.range 256).map fun n => decodeWith (BitVec.ofNat 8 n) 0 0
  (instrs.filter fun i => !fatal i).length = 195 ∧ (instrs.filter fatalInFamily).length = 31 ∧
    (instrs.filter fun i => fatal i && !fatalInFamily i).length = 30

/-! ### The cycle (40_decoder_sequencer.md) -/

/-- Where the machine fetches (RUNNING, pc short of the image's end) and the bytes from pc up decode to `i`, the step is
`exec i` at that state and nothing around it: `exec` writes pc itself. -/
def Obligations.StepRunsTheDecodedInstruction : Prop :=
  ∀ (s : State) (i : Instr) (rest : List Byte),
    s.fetches → decode s.bytesAtPc = .instr i rest → step s = exec i s

/-- A RUNNING machine whose pc has reached the image's end ENDS and changes nothing else: the byte at pc is not fetched. The
test `pc >= IMAGE_LEN` is the spec's decision D12 (log 12). -/
def Obligations.ReachingTheImageEndEndsTheRun : Prop :=
  ∀ s : State, s.runState = .running → s.imageLen ≤ s.pc.toNat → step s = .next { s with runState := .ended }

/-- A machine that is HALTED, ENDED or FAULTED is left as it is by any number of steps (R128). That a step of it answers the
same state, where the rule has no step at all, is the model's form (log 28). -/
def Obligations.StoppedMachineNeverChanges : Prop :=
  ∀ (n : Nat) (s : State), s.runState ≠ .running → Sys2Proof.core.run n s = .next s

/-- Every step answers a next state: no byte stops the model, since even a fatal one has an effect the spec gives. That a
fault is a next state, and never the interface's fault or refusal, is the model's choice (log 14); so is the next state of a
stopped machine (log 28). -/
def Obligations.EveryStepAnswersANextState : Prop :=
  ∀ s : State, ∃ t, step s = .next t

/-- `run` of the host is steps while RUNNING (70_reset_and_hazards.md R283): once it has returned a machine that is not
RUNNING, a longer run returns the same. -/
def Obligations.FinishedRunIsFinal : Prop :=
  ∀ (n m : Nat) (s t : State), run n s = .next t → t.runState ≠ .running → n ≤ m → run m s = .next t

/-! ### Invariants -/

/-- Every step keeps the canonical form of memory and the bound on the image length. -/
def Obligations.StepKeepsCanonicalMemory : Prop :=
  ∀ s t : State, s.Inv → step s = .next t → t.Inv

/-- Every step keeps the fault record true: a FAULTED machine's record names pc and the byte there, which is one of the bytes
fatal for the recorded cause, and the cause is never MemoryOutOfBounds. That a fault leaves pc and memory as they were is the
spec's decision D11 (log 11), which byte has which cause its decision D9 (log 9), what the record holds its decision D14
(log 14). -/
def Obligations.StepKeepsFaultRecordTrue : Prop :=
  ∀ s t : State, s.FaultRecord → step s = .next t → t.FaultRecord

/-- The state after reset meets both invariants. -/
def Obligations.ResetMeetsTheInvariants : Prop :=
  State.reset.Inv ∧ State.reset.FaultRecord

/-- No step changes the image length: IMAGE_LEN is fixed at construction (10_state.md R42; held in State as the model's own
field, log 24). -/
def Obligations.StepKeepsImageLength : Prop :=
  ∀ s t : State, step s = .next t → t.imageLen = s.imageLen

/-! ### What the instructions may write, over all of them -/

/-- An instruction changes no register but those 10_state.md R22 lists for it. -/
def Obligations.RegistersChangeOnlyWhereListed : Prop :=
  ∀ (i : Instr) (s t : State), exec i s = .next t → ∀ r, r ∉ regsWritten i → t.reg r = s.reg r

/-- An instruction changes no flag but those 10_state.md R30 lists for it. That an unlisted flag holds is the spec's decision
D13 (log 13). -/
def Obligations.FlagsChangeOnlyWhereListed : Prop :=
  ∀ (i : Instr) (s t : State), exec i s = .next t → ∀ f, f ∉ flagsWritten i → t.flags.get f = s.flags.get f

/-- Only POP PSW writes auxiliary carry, from bit 4 of the byte at sp; PUSH PSW carries it in bit 4 of the status byte it
stores, at the new sp (10_state.md section 4). That POP PSW reads the status byte at sp is the reading of 90_conflicts.md C2
(log 26); that the forms the spec does not name hold the flag is its decision D13 (log 13). -/
def Obligations.AuxiliaryCarryMovesOnlyThroughTheStack : Prop :=
  ∀ (i : Instr) (s t : State), exec i s = .next t →
    t.flags.ac = (if i = .popPsw then (s.byteAt s.sp).getLsbD 4 else s.flags.ac) ∧
    (i = .pushPsw → (t.byteAt t.sp).getLsbD 4 = s.flags.ac)

/-- The stack pointer moves down by 2 on PUSH, up by 2 on POP and up by 1 on INX SP, and never otherwise (10_state.md R28,
70_reset_and_hazards.md R291). -/
def Obligations.StackPointerMovesOnlyByStackForms : Prop :=
  ∀ (i : Instr) (s t : State), exec i s = .next t → t.sp = spAfter i s.sp

/-- Every byte of memory outside the addresses an instruction stores to reads as before; `storedAt` computes those addresses
with the expressions the meanings use (20_memory.md R51). -/
def Obligations.MemoryChangesOnlyAtStoredAddresses : Prop :=
  ∀ (i : Instr) (s t : State), exec i s = .next t → ∀ a, a ∉ storedAt i s → t.byteAt a = s.byteAt a

/-- The program counter after every instruction: one past the target for a taken jump, unchanged for HLT and a fatal row, and
past the instruction's bytes otherwise (40_decoder_sequencer.md section 3). That pc is unchanged after HLT is the spec's
decision D10 (log 10), and after a fatal row its decision D11 (log 11); the landing of a taken jump is its reading of
90_conflicts.md C1 (log 25). -/
def Obligations.ProgramCounterAfterEveryInstruction : Prop :=
  ∀ (i : Instr) (s t : State), exec i s = .next t → t.pc = pcAfter i s

/-- HLT makes the machine HALTED, a fatal row makes it FAULTED with its cause, its byte and pc, and no other instruction
changes the run state (60_exceptions.md sections 1 and 2). Which cause a row has is the spec's decision D9 (log 9), the run
state and the fault's record its decision D14 (log 14). -/
def Obligations.RunStateAfterEveryInstruction : Prop :=
  ∀ (i : Instr) (s t : State), exec i s = .next t → t.runState = runStateAfter i s

/-! ### Control instructions (42_control.md) -/

/-- NOP, opcode 0x00, advances pc by 1; all else is unchanged. The other seven bytes of its (cls, snd) group are
fatal, not no-operations: running one makes the machine FAULTED (R171). -/
def Obligations.NopAdvancesPcOnly : Prop :=
  encode .nop = [0x00] ∧ (∀ s : State, exec .nop s = .next { s with pc := s.pc + 1 }) ∧
    ∀ op ∈ ([0x08, 0x10, 0x18, 0x20, 0x28, 0x30, 0x38] : List Byte), ∀ s : State,
      ∃ t c, exec (decodeWith op 0 0) s = .next t ∧ t.runState = .faulted c

/-- STC sets carry, CMC inverts it; pc advances by 1 and all else, the other flags among it, is unchanged (that the others
hold is the spec's decision D13, log 13). -/
def Obligations.StcSetsAndCmcInvertsCarry : Prop :=
  ∀ s : State,
    exec .stc s = .next { s with flags := { s.flags with cy := true }, pc := s.pc + 1 } ∧
    exec .cmc s = .next { s with flags := { s.flags with cy := !s.flags.cy }, pc := s.pc + 1 }

/-- HLT makes the machine HALTED and changes nothing else; that pc keeps the byte's address is the spec's decision D10
(log 10). -/
def Obligations.HltHaltsInPlace : Prop :=
  ∀ s : State, exec .hlt s = .next { s with runState := .halted }

/-! ### Data transfer (43_transfer.md) -/

/-- Opcode 0x0A loads A from the address in DE and 0x1A from the address in BC (R184, R185). -/
def Obligations.LdaxLoadsThroughThePair : Prop :=
  encode .ldaxB = [0x0A] ∧ encode .ldaxD = [0x1A] ∧ ∀ s : State,
    (∃ t, exec .ldaxB s = .next t ∧ t.reg .A = s.byteAt (wordOf (s.reg .D) (s.reg .E)) ∧ t.pc = s.pc + 1 ∧
      t.sp = s.sp ∧ t.flags = s.flags ∧ Leaves [.A] [] s t) ∧
    (∃ t, exec .ldaxD s = .next t ∧ t.reg .A = s.byteAt (wordOf (s.reg .B) (s.reg .C)) ∧ t.pc = s.pc + 1 ∧
      t.sp = s.sp ∧ t.flags = s.flags ∧ Leaves [.A] [] s t)

/-- LDA, opcode 0x3A and its address low byte first, loads A from that address (R186). -/
def Obligations.LdaLoadsTheAccumulator : Prop :=
  ∀ (a16 : Word) (s : State), encode (.lda a16) = [0x3A, loByte a16, hiByte a16] ∧
    ∃ t, exec (.lda a16) s = .next t ∧ t.reg .A = s.byteAt a16 ∧ t.pc = s.pc + 3 ∧ t.sp = s.sp ∧
      t.flags = s.flags ∧ Leaves [.A] [] s t

/-- STA, opcode 0x32 and its address low byte first, stores A at that address. Both operand bytes are read before the store: a
step that runs STA stores at the address its operand bytes held before the step, also where that is an operand byte itself
(R187). -/
def Obligations.StaStoresTheAccumulator : Prop :=
  let stored (a16 : Word) (s t : State) : Prop := t.byteAt a16 = s.reg .A ∧ t.pc = s.pc + 3 ∧ t.sp = s.sp ∧
    t.flags = s.flags ∧ Leaves [] [a16] s t
  (∀ (a16 : Word) (s : State), encode (.sta a16) = [0x32, loByte a16, hiByte a16] ∧
    ∃ t, exec (.sta a16) s = .next t ∧ stored a16 s t) ∧
  ∀ s : State, s.fetches → s.byteAt s.pc = 0x32 →
    ∃ t, step s = .next t ∧ stored (wordOf (s.byteAt (s.pc + 2)) (s.byteAt (s.pc + 1))) s t

/-- XCHG, opcode 0xEB, swaps D with H and E with L (R188). -/
def Obligations.XchgSwapsThePairs : Prop :=
  encode .xchg = [0xEB] ∧ ∀ s : State, ∃ t, exec .xchg s = .next t ∧
    t.reg .D = s.reg .H ∧ t.reg .E = s.reg .L ∧ t.reg .H = s.reg .D ∧ t.reg .L = s.reg .E ∧ t.pc = s.pc + 1 ∧
    t.sp = s.sp ∧ t.flags = s.flags ∧ Leaves [.D, .E, .H, .L] [] s t

/-- MVI, opcode `00 ddd 110` and the immediate, puts the immediate into the register, or, opcode 0x36, into the cell at HL.
The selector values in the opcode are the spec's decision D4 (log 4). -/
def Obligations.MviPutsTheImmediate : Prop :=
  ∀ (d : Reg) (d8 : Byte) (s : State),
    encode (.mviR d d8) = [BitVec.ofNat 8 (8 * d.sel.toNat + 6), d8] ∧ encode (.mviM d8) = [0x36, d8] ∧
    (∃ t, exec (.mviR d d8) s = .next t ∧ t.reg d = d8 ∧ t.pc = s.pc + 2 ∧ t.sp = s.sp ∧ t.flags = s.flags ∧
      Leaves [d] [] s t) ∧
    (∃ t, exec (.mviM d8) s = .next t ∧ t.byteAt (s.pair .HL) = d8 ∧ t.pc = s.pc + 2 ∧ t.sp = s.sp ∧
      t.flags = s.flags ∧ Leaves [] [s.pair .HL] s t)

/-- MOV, opcode `01 ddd sss`: MOV d,s copies a register; MOV d,M loads it from the cell at HL, the address formed before the
write; MOV M,s stores it there. The selector values in the opcodes are the spec's decision D4 (log 4). -/
def Obligations.MovCopiesTheSource : Prop :=
  ∀ (d r : Reg) (s : State),
    encode (.movRR d r) = [BitVec.ofNat 8 (64 + 8 * d.sel.toNat + r.sel.toNat)] ∧
    encode (.movRM d) = [BitVec.ofNat 8 (64 + 8 * d.sel.toNat + 6)] ∧
    encode (.movMR r) = [BitVec.ofNat 8 (64 + 8 * 6 + r.sel.toNat)] ∧
    (∃ t, exec (.movRR d r) s = .next t ∧ t.reg d = s.reg r ∧ t.pc = s.pc + 1 ∧ t.sp = s.sp ∧ t.flags = s.flags ∧
      Leaves [d] [] s t) ∧
    (∃ t, exec (.movRM d) s = .next t ∧ t.reg d = s.byteAt (s.pair .HL) ∧ t.pc = s.pc + 1 ∧ t.sp = s.sp ∧
      t.flags = s.flags ∧ Leaves [d] [] s t) ∧
    (∃ t, exec (.movMR r) s = .next t ∧ t.byteAt (s.pair .HL) = s.reg r ∧ t.pc = s.pc + 1 ∧ t.sp = s.sp ∧
      t.flags = s.flags ∧ Leaves [] [s.pair .HL] s t)

/-! ### Jumps (44_jump.md) -/

/-- JMP, opcode 0xC3 and its address low byte first, lands one past that address, whatever the flags hold, and changes nothing
else (R202). -/
def Obligations.JmpLandsOnePastItsTarget : Prop :=
  ∀ (a16 : Word) (s : State),
    encode (.jmp a16) = [0xC3, loByte a16, hiByte a16] ∧ exec (.jmp a16) s = .next { s with pc := a16 + 1 }

/-- Each conditional jump, by its opcode, lands one past its address when its condition holds, falls through by 3 when not,
and changes nothing but pc (R203 to R210, with R200's body). -/
def Obligations.ConditionalJumpsFollowTheirFlag : Prop :=
  ∀ (a16 : Word) (s : State),
    [Instr.jnz a16, .jz a16, .jnc a16, .jc a16, .jpo a16, .jpe a16, .jp a16, .jm a16].map encode =
      [0xC2, 0xCA, 0xD2, 0xDA, 0xE2, 0xEA, 0xF2, 0xFA].map (fun op => [op, loByte a16, hiByte a16]) ∧
    exec (.jnz a16) s = .next { s with pc := if s.flags.z = false then a16 + 1 else s.pc + 3 } ∧
    exec (.jz a16) s = .next { s with pc := if s.flags.z = true then a16 + 1 else s.pc + 3 } ∧
    exec (.jnc a16) s = .next { s with pc := if s.flags.cy = false then a16 + 1 else s.pc + 3 } ∧
    exec (.jc a16) s = .next { s with pc := if s.flags.cy = true then a16 + 1 else s.pc + 3 } ∧
    exec (.jpo a16) s = .next { s with pc := if s.flags.p = false then a16 + 1 else s.pc + 3 } ∧
    exec (.jpe a16) s = .next { s with pc := if s.flags.p = true then a16 + 1 else s.pc + 3 } ∧
    exec (.jp a16) s = .next { s with pc := if s.flags.s = false then a16 + 1 else s.pc + 3 } ∧
    exec (.jm a16) s = .next { s with pc := if s.flags.s = true then a16 + 1 else s.pc + 3 }

/-! ### Arithmetic and logic (41_alu.md) -/

/-- The addition forms: with `r = A + v + cin` as a number, A becomes `r mod 256` and the flags are those of `r`; the operand
is a register, the byte at HL, or the immediate. Parity counts 16 bits by the spec's decision D6 (log 6). -/
def Obligations.AdditionFormsComputeTheSum : Prop :=
  ∀ (o : Operand) (d8 : Byte) (s : State),
    let sum (v : Byte) (cin : Bool) : Nat := (s.reg .A).toNat + v.toNat + cin.toNat
    let done (r : Nat) (len : Word) (t : State) : Prop := (t.reg .A).toNat = r % 256 ∧
      FlagsOfResult r s.flags t.flags ∧ t.pc = s.pc + len ∧ t.sp = s.sp ∧ Leaves [.A] [] s t
    (∃ t, exec (.add o) s = .next t ∧ done (sum (valueOf o s) false) 1 t) ∧
    (∃ t, exec (.adc o) s = .next t ∧ done (sum (valueOf o s) s.flags.cy) 1 t) ∧
    (∃ t, exec (.adi d8) s = .next t ∧ done (sum d8 false) 2 t) ∧
    (∃ t, exec (.aci d8) s = .next t ∧ done (sum d8 s.flags.cy) 2 t)

/-- The subtraction forms: with `r = A - (v + cin)` wrapped at 65536, A becomes `r mod 256` and the flags are those of `r`, so
carry is the borrow. That `v + cin` is formed at 16 bits is the spec's decision D18 (log 18), the parity width D6 (log 6). -/
def Obligations.SubtractionFormsComputeTheDifference : Prop :=
  ∀ (o : Operand) (d8 : Byte) (s : State),
    let diff (v : Byte) (cin : Bool) : Nat :=
      if v.toNat + cin.toNat ≤ (s.reg .A).toNat then (s.reg .A).toNat - (v.toNat + cin.toNat)
      else 65536 + (s.reg .A).toNat - (v.toNat + cin.toNat)
    let done (r : Nat) (len : Word) (t : State) : Prop := (t.reg .A).toNat = r % 256 ∧
      FlagsOfResult r s.flags t.flags ∧ t.pc = s.pc + len ∧ t.sp = s.sp ∧ Leaves [.A] [] s t
    (∃ t, exec (.sub o) s = .next t ∧ done (diff (valueOf o s) false) 1 t) ∧
    (∃ t, exec (.sbb o) s = .next t ∧ done (diff (valueOf o s) s.flags.cy) 1 t) ∧
    (∃ t, exec (.sui d8) s = .next t ∧ done (diff d8 false) 2 t) ∧
    (∃ t, exec (.sbi d8) s = .next t ∧ done (diff d8 s.flags.cy) 2 t)

/-- The logical forms combine A and the operand bit by bit; carry becomes false, and zero, sign and parity are those of the
byte. Auxiliary carry holds. -/
def Obligations.LogicalFormsCombineBitwise : Prop :=
  ∀ (o : Operand) (d8 : Byte) (s : State),
    let done (r : Byte) (len : Word) (t : State) : Prop := t.reg .A = r ∧ t.flags.cy = false ∧
      FlagsOfResult r.toNat s.flags t.flags ∧ t.pc = s.pc + len ∧ t.sp = s.sp ∧ Leaves [.A] [] s t
    (∃ t, exec (.ana o) s = .next t ∧ done (s.reg .A &&& valueOf o s) 1 t) ∧
    (∃ t, exec (.xra o) s = .next t ∧ done (s.reg .A ^^^ valueOf o s) 1 t) ∧
    (∃ t, exec (.ora o) s = .next t ∧ done (s.reg .A ||| valueOf o s) 1 t) ∧
    (∃ t, exec (.ani d8) s = .next t ∧ done (s.reg .A &&& d8) 2 t) ∧
    (∃ t, exec (.xri d8) s = .next t ∧ done (s.reg .A ^^^ d8) 2 t) ∧
    (∃ t, exec (.ori d8) s = .next t ∧ done (s.reg .A ||| d8) 2 t)

/-- The compares write the flags of `A - v` wrapped at 65536 and no register: zero iff equal, carry iff A is smaller. That
they take no carry-in is the spec's decision D18 (log 18), the parity width D6 (log 6). -/
def Obligations.CompareFormsSetFlagsOnly : Prop :=
  ∀ (o : Operand) (d8 : Byte) (s : State),
    let done (v : Byte) (len : Word) (t : State) : Prop :=
      FlagsOfResult ((65536 + (s.reg .A).toNat - v.toNat) % 65536) s.flags t.flags ∧
      t.flags.z = decide (s.reg .A = v) ∧ t.flags.cy = decide ((s.reg .A).toNat < v.toNat) ∧
      t.pc = s.pc + len ∧ t.sp = s.sp ∧ Leaves [] [] s t
    (∃ t, exec (.cmp o) s = .next t ∧ done (valueOf o s) 1 t) ∧
    (∃ t, exec (.cpi d8) s = .next t ∧ done d8 2 t)

/-- When an addition (ADD, ADC, ADI, ACI) carries out, the parity flag is the opposite of the parity of the byte left in A, and
otherwise it is that parity: a consequence of counting all 16 bits of the result (the spec's decision D6, log 6). -/
def Obligations.CarryingAdditionInvertsParity : Prop :=
  ∀ (o : Operand) (d8 : Byte) (s t : State),
    ∀ i ∈ [Instr.add o, .adc o, .adi d8, .aci d8], exec i s = .next t →
      (t.flags.p = (decide (oneBits (t.reg .A).toNat % 2 = 0) ^^ t.flags.cy))

/-! ### Single-operand forms (45_single_operand.md) -/

/-- INR replaces the register or the cell at HL by its byte plus 1 modulo 256 and sets zero, sign and parity from that byte;
carry holds. That the flags see the 8-bit byte is the spec's decision D7 (log 7). -/
def Obligations.InrAddsOneAndKeepsCarry : Prop :=
  ∀ (d : Reg) (s : State),
    (∃ t, exec (.inrR d) s = .next t ∧ (t.reg d).toNat = ((s.reg d).toNat + 1) % 256 ∧
      FlagsOfByte (t.reg d).toNat s.flags t.flags ∧ t.pc = s.pc + 1 ∧ t.sp = s.sp ∧ Leaves [d] [] s t) ∧
    (∃ t, exec .inrM s = .next t ∧ (t.byteAt (s.pair .HL)).toNat = ((s.byteAt (s.pair .HL)).toNat + 1) % 256 ∧
      FlagsOfByte (t.byteAt (s.pair .HL)).toNat s.flags t.flags ∧ t.pc = s.pc + 1 ∧ t.sp = s.sp ∧
      Leaves [] [s.pair .HL] s t)

/-- DCR replaces the register or the cell at HL by its byte minus 1 modulo 256 and sets zero, sign and parity from that byte;
carry holds. That the flags see the 8-bit byte is the spec's decision D7 (log 7). -/
def Obligations.DcrSubtractsOneAndKeepsCarry : Prop :=
  ∀ (d : Reg) (s : State),
    (∃ t, exec (.dcrR d) s = .next t ∧ (t.reg d).toNat = ((s.reg d).toNat + 255) % 256 ∧
      FlagsOfByte (t.reg d).toNat s.flags t.flags ∧ t.pc = s.pc + 1 ∧ t.sp = s.sp ∧ Leaves [d] [] s t) ∧
    (∃ t, exec .dcrM s = .next t ∧ (t.byteAt (s.pair .HL)).toNat = ((s.byteAt (s.pair .HL)).toNat + 255) % 256 ∧
      FlagsOfByte (t.byteAt (s.pair .HL)).toNat s.flags t.flags ∧ t.pc = s.pc + 1 ∧ t.sp = s.sp ∧
      Leaves [] [s.pair .HL] s t)

/-- Increment then decrement of any register, or of the cell at HL, returns it to its value, and neither writes carry: a true
carry stays true, a false one false (R224). -/
def Obligations.IncrementThenDecrementRestores : Prop :=
  ∀ s t u : State,
    (∀ d : Reg, exec (.inrR d) s = .next t → exec (.dcrR d) t = .next u →
      u.reg d = s.reg d ∧ t.flags.cy = s.flags.cy ∧ u.flags.cy = s.flags.cy) ∧
    (exec .inrM s = .next t → exec .dcrM t = .next u →
      u.byteAt (s.pair .HL) = s.byteAt (s.pair .HL) ∧ t.flags.cy = s.flags.cy ∧ u.flags.cy = s.flags.cy)

/-- RLC doubles A modulo 256 plus the bit that left at the top, which becomes carry; RRC halves A plus 128 times the bit that
left at the bottom, which becomes carry. The other flags hold by the spec's decision D13 (log 13). -/
def Obligations.RotatesMoveTheOutgoingBit : Prop :=
  ∀ s : State,
    (∃ t, exec .rlc s = .next t ∧ (t.reg .A).toNat = (s.reg .A).toNat * 2 % 256 + (s.reg .A).toNat / 128 ∧
      t.flags = { s.flags with cy := decide (128 ≤ (s.reg .A).toNat) } ∧ t.pc = s.pc + 1 ∧ t.sp = s.sp ∧
      Leaves [.A] [] s t) ∧
    (∃ t, exec .rrc s = .next t ∧ (t.reg .A).toNat = (s.reg .A).toNat / 2 + (s.reg .A).toNat % 2 * 128 ∧
      t.flags = { s.flags with cy := decide ((s.reg .A).toNat % 2 = 1) } ∧ t.pc = s.pc + 1 ∧ t.sp = s.sp ∧
      Leaves [.A] [] s t)

/-- DAD adds a pair or sp to HL modulo 65536 and sets carry from the sum, the other flags held; both values are those before
the instruction, so DAD HL doubles. -/
def Obligations.DadAddsIntoHl : Prop :=
  ∀ (y : PairOrSp) (s : State), ∃ t, exec (.dad y) s = .next t ∧
    (t.pair .HL).toNat = ((s.pair .HL).toNat + (pairOrSp y s).toNat) % 65536 ∧
    t.flags = { s.flags with cy := decide (65535 < (s.pair .HL).toNat + (pairOrSp y s).toNat) } ∧
    t.pc = s.pc + 1 ∧ t.sp = s.sp ∧ Leaves [.H, .L] [] s t

/-- INX adds 1 modulo 65536 to a pair or to sp and writes no flag: 0xFFFF becomes 0. -/
def Obligations.InxIncrementsThePair : Prop :=
  ∀ (p : RegPair) (s : State),
    (∃ t, exec (.inx (.pair p)) s = .next t ∧ (t.pair p).toNat = ((s.pair p).toNat + 1) % 65536 ∧
      t.flags = s.flags ∧ t.pc = s.pc + 1 ∧ t.sp = s.sp ∧ Leaves (pairRegs p) [] s t) ∧
    (∃ t, exec (.inx .sp) s = .next t ∧ t.sp.toNat = (s.sp.toNat + 1) % 65536 ∧ t.flags = s.flags ∧
      t.pc = s.pc + 1 ∧ Leaves [] [] s t)

/-! ### Stack (46_stack.md) -/

/-- PUSH of a pair (opcodes 0xC5, 0xD5, 0xE5) writes its high register at `sp - 1` and its low register at `sp - 2`, and lowers sp
by 2. The pair selectors in the opcodes are the spec's decision D5 (log 5). -/
def Obligations.PushStoresThePair : Prop :=
  encode (.pushRp .BC) = [0xC5] ∧ encode (.pushRp .DE) = [0xD5] ∧ encode (.pushRp .HL) = [0xE5] ∧
  ∀ (p : RegPair) (s : State), ∃ t, exec (.pushRp p) s = .next t ∧ t.byteAt (s.sp - 1) = s.reg (hiReg p) ∧
    t.byteAt (s.sp - 2) = s.reg (loReg p) ∧ t.sp = s.sp - 2 ∧ t.pc = s.pc + 1 ∧ t.flags = s.flags ∧
    Leaves [] [s.sp - 1, s.sp - 2] s t

/-- PUSH PSW, opcode 0xF5, writes A at `sp - 1` and the status byte at `sp - 2`: bit 7 sign, 6 zero, 4 auxiliary carry,
2 parity, 0 carry, bit 1 one, bits 3 and 5 zero. That selector 3 names this form is the spec's decision D5 (log 5). -/
def Obligations.PushPswStoresAccumulatorAndStatus : Prop :=
  encode .pushPsw = [0xF5] ∧ ∀ s : State, ∃ t, exec .pushPsw s = .next t ∧ t.byteAt (s.sp - 1) = s.reg .A ∧
    (t.byteAt (s.sp - 2)).toNat = 128 * s.flags.s.toNat + 64 * s.flags.z.toNat + 16 * s.flags.ac.toNat +
      4 * s.flags.p.toNat + 2 + s.flags.cy.toNat ∧
    t.sp = s.sp - 2 ∧ t.pc = s.pc + 1 ∧ t.flags = s.flags ∧ Leaves [] [s.sp - 1, s.sp - 2] s t

/-- POP of a pair (opcodes 0xC1, 0xD1, 0xE1) reads its low register at sp and its high register at `sp + 1`, and raises
sp by 2; memory is unchanged. The pair selectors in the opcodes are the spec's decision D5 (log 5). -/
def Obligations.PopLoadsThePair : Prop :=
  encode (.popRp .BC) = [0xC1] ∧ encode (.popRp .DE) = [0xD1] ∧ encode (.popRp .HL) = [0xE1] ∧
  ∀ (p : RegPair) (s : State), ∃ t, exec (.popRp p) s = .next t ∧ t.reg (loReg p) = s.byteAt s.sp ∧
    t.reg (hiReg p) = s.byteAt (s.sp + 1) ∧ t.sp = s.sp + 2 ∧ t.pc = s.pc + 1 ∧ t.flags = s.flags ∧
    Leaves (pairRegs p) [] s t

/-- POP PSW rebuilds the five flags from bits 7, 6, 4, 2 and 0 of the byte at sp and loads A from the byte at `sp + 1`. That
the flags come from the byte at sp and A from the byte above it is the reading of 90_conflicts.md C2 (log 26); that bit 1 is
ignored is the spec's decision D16 (log 16). -/
def Obligations.PopPswLoadsAccumulatorAndFlags : Prop :=
  ∀ s : State, ∃ t, exec .popPsw s = .next t ∧ t.reg .A = s.byteAt (s.sp + 1) ∧
    t.flags.s = decide ((s.byteAt s.sp).toNat / 128 = 1) ∧ t.flags.z = decide ((s.byteAt s.sp).toNat / 64 % 2 = 1) ∧
    t.flags.ac = decide ((s.byteAt s.sp).toNat / 16 % 2 = 1) ∧ t.flags.p = decide ((s.byteAt s.sp).toNat / 4 % 2 = 1) ∧
    t.flags.cy = decide ((s.byteAt s.sp).toNat % 2 = 1) ∧ t.sp = s.sp + 2 ∧ t.pc = s.pc + 1 ∧ Leaves [.A] [] s t

/-- PUSH of one pair followed at once by POP of a pair, the same or another, copies the pushed value and restores sp
(46_stack.md). -/
def Obligations.PushThenPopCopiesThePair : Prop :=
  ∀ (p q : RegPair) (s t u : State), exec (.pushRp p) s = .next t → exec (.popRp q) t = .next u →
    u.pair q = s.pair p ∧ u.sp = s.sp

/-- PUSH PSW, then any change of registers and flags, then POP PSW: A, all five flags and sp are as at the push. That POP
PSW reads the flags from the byte at sp is the reading of 90_conflicts.md C2 (log 26). -/
def Obligations.PushThenPopPswRestores : Prop :=
  ∀ (s t u : State) (x : Regs) (f : Flags), exec .pushPsw s = .next t →
    exec .popPsw { t with regs := x, flags := f } = .next u → u.reg .A = s.reg .A ∧ u.flags = s.flags ∧ u.sp = s.sp

/-! ### Faults (60_exceptions.md) -/

/-- Raising a fault sets the run state to FAULTED with the fault and does nothing else: nothing is saved or pushed, no vector
is read, pc stays (R255). -/
def Obligations.RaisingSetsTheRunStateOnly : Prop :=
  ∀ (f : Fault) (s : State), raise f s = .next { s with runState := .faulted f }

/-- Each of the eleven fatal rows raises its fault, which records the opcode byte and pc, and changes nothing else; the
unchanged state is the spec's decision D11 (log 11), the name by row its decision D9 (log 9). -/
def Obligations.FatalRowsRaiseTheirFault : Prop :=
  ∀ (f : BitVec 3) (p : BitVec 2) (s : State),
    let sub (op : Byte) : Result := .next { s with runState := .faulted (.unrecognizedSubOperation op s.pc) }
    let unrec (op : Byte) : Result := .next { s with runState := .faulted (.unrecognizedOpcode op s.pc) }
    exec (.illegalS07 f) s = sub (BitVec.ofNat 8 (8 * f.toNat + 7)) ∧
    exec (.illegalS01 p) s = sub (BitVec.ofNat 8 (16 * p.toNat + 1)) ∧
    exec (.illegalS03 p) s = sub (BitVec.ofNat 8 (16 * p.toNat + 11)) ∧
    exec (.illegalS00 f) s = sub (BitVec.ofNat 8 (8 * f.toNat)) ∧
    exec (.illegalS02 f) s = sub (BitVec.ofNat 8 (8 * f.toNat + 2)) ∧
    exec (.illegalS35 p) s = sub (BitVec.ofNat 8 (192 + 16 * p.toNat + 13)) ∧
    exec (.illegalS31 p) s = sub (BitVec.ofNat 8 (192 + 16 * p.toNat + 9)) ∧
    exec (.illegalU30 f) s = unrec (BitVec.ofNat 8 (192 + 8 * f.toNat)) ∧
    exec (.illegalU34 f) s = unrec (BitVec.ofNat 8 (192 + 8 * f.toNat + 4)) ∧
    exec (.illegalU37 f) s = unrec (BitVec.ofNat 8 (192 + 8 * f.toNat + 7)) ∧
    exec (.illegalU33 f) s = unrec (BitVec.ofNat 8 (192 + 8 * f.toNat + 3))

/-- A step that fetches one of the 30 bytes of R251 raises UnrecognizedOpcode, and one that fetches one of the 31 bytes of
R252 raises UnrecognizedSubOperation, with the byte and pc, and nothing else changes. The names rest on the spec's decision
D9 (log 9), the unchanged state on D11 (log 11). -/
def Obligations.FetchedFatalByteFaults : Prop :=
  ∀ s : State, s.fetches →
    (s.byteAt s.pc ∈ opcodeFaultBytes →
      step s = .next { s with runState := .faulted (.unrecognizedOpcode (s.byteAt s.pc) s.pc) }) ∧
    (s.byteAt s.pc ∈ subOperationFaultBytes →
      step s = .next { s with runState := .faulted (.unrecognizedSubOperation (s.byteAt s.pc) s.pc) })

/-- A step makes a machine FAULTED only by fetching one of the 61 fatal bytes as an opcode: an implemented instruction never
raises anything, whatever its operand bytes are
(60_exceptions.md). -/
def Obligations.OnlyAFatalOpcodeFaults : Prop :=
  ∀ (s t : State) (c : Fault), s.runState = .running → step s = .next t → t.runState = .faulted c →
    s.byteAt s.pc ∈ opcodeFaultBytes ∨ s.byteAt s.pc ∈ subOperationFaultBytes

/-- An access beyond cell 65535 that the memory port answers with its bounds error ends the run with MemoryOutOfBounds and the
offset, in the state reached so far; an offset the port accepts goes on with the byte, or with the one cell changed
(20_memory.md R64, 60_exceptions.md R253; unreachable with 16-bit addresses, log 20). -/
def Obligations.PortBoundsErrorEndsTheRun : Prop :=
  ∀ (offset : Nat) (v : Byte) (s : State) (k : Byte → Result) (w : State → Result),
    (65536 ≤ offset →
      portRead offset s k = .next { s with runState := .faulted (.memoryOutOfBounds offset) } ∧
      portWrite offset v s w = .next { s with runState := .faulted (.memoryOutOfBounds offset) }) ∧
    (offset < 65536 →
      portRead offset s k = k (s.mem.load offset) ∧
      portWrite offset v s w = w { s with mem := s.mem.store offset v })

/-! ### Memory (20_memory.md) -/

/-- A byte the port accepts is what a fetch of that offset then returns, and every other cell keeps its content, so it stays
until the next `set_byte` of the same offset; the core's `MemWrite` is `set_byte` of its address (R62). -/
def Obligations.SetByteChangesOneCell : Prop :=
  (∀ (m : Memory) (offset : Nat) (v : Byte), offset < 65536 →
    ∃ m', m.setByte offset v = .ok m' ∧ m'.fetchByte offset = .ok v ∧
      ∀ b, b ≠ offset → m'.fetchByte b = m.fetchByte b) ∧
  ∀ (a : Word) (v : Byte) (s : State) (k : State → Result),
    ∃ m', s.mem.setByte a.toNat v = .ok m' ∧ memWrite a v s k = k { s with mem := m' }

/-- Two memories in canonical form that read alike at every 16-bit address are the same data. -/
def Obligations.CanonicalMemoriesAreEqualData : Prop :=
  ∀ m m' : Memory, m.wf = true → m'.wf = true → (∀ a : Word, m.load a.toNat = m'.load a.toNat) → m = m'

/-- `fetch_bytes` of a range inside memory is the cells in rising order (20_memory.md; the decision D15,
log 15). -/
def Obligations.FetchBytesReadsTheRange : Prop :=
  ∀ (m : Memory) (offset count : Nat), offset + count ≤ 65536 →
    m.fetchBytes offset count = .ok ((List.range count).map fun k => m.load (offset + k))

/-- A store is seen by the very next fetch (20_memory.md section 7): whatever instruction a step has run (MOV M, MVI M, INR M,
DCR M, STA and PUSH store), the next step runs the one that the bytes at the new pc stand for, where each byte is the one
just stored there, or else the one that was there before. -/
def Obligations.StoreOntoTheNextInstructionIsFetched : Prop :=
  ∀ (s t : State) (i j : Instr) (rest rest' : List Byte),
    s.fetches → decode s.bytesAtPc = .instr i rest → step s = .next t → t.fetches →
    decode [byteAfter i s t.pc, byteAfter i s (t.pc + 1), byteAfter i s (t.pc + 2)] = .instr j rest' →
    step t = exec j t

/-! ### Reset and the host (10_state.md R41, 70_reset_and_hazards.md) -/

/-- The state after reset: pc, sp and B are zero, every memory cell is zero, the machine is RUNNING. That A, C, D, E, H, L are
zero and the flags false is the spec's decision D2 (log 2); the empty image's length 0 is the model's (log 24). -/
def Obligations.ResetState : Prop :=
  State.reset.pc = 0 ∧ State.reset.sp = 0 ∧ (∀ r, State.reset.reg r = 0) ∧ (∀ f, State.reset.flags.get f = false) ∧
    (∀ a, State.reset.byteAt a = 0) ∧ State.reset.runState = .running ∧ State.reset.imageLen = 0

/-- Construction on an image of at most 65536 bytes puts byte k of the image in cell k and zero in every cell beyond it, fixes
IMAGE_LEN as the image's length and leaves the rest at reset; a longer image is refused (the refusal is the spec's decision
D23, log 23; the reset values but pc's, sp's and B's are D2, log 2). -/
def Obligations.ConstructLoadsTheImage : Prop :=
  ∀ image : List Byte,
    (image.length ≤ 65536 → ∃ s, State.construct image = .next s ∧
      (∀ a : Word, s.byteAt a = image.getD a.toNat 0) ∧ s.imageLen = image.length ∧ s.Inv ∧
      s.regs = State.reset.regs ∧ s.flags = State.reset.flags ∧ s.pc = 0 ∧ s.sp = 0 ∧ s.runState = .running) ∧
    (65536 < image.length → State.construct image = .refused (.imageTooLong image.length))
end

