-- ==== Sys2Proof/Laws/Flags.lean ====
section
/-! SUPPORT. Laws/Flags.lean: the flag rules as facts about numbers, and the status byte's round trip. -/

namespace Sys2Proof.Machine

theorem zeroRule_eq (r : Word) : zeroRule r = decide (r.toNat % 256 = 0) := by
  simp [zeroRule, loByte, BitVec.toNat_eq, beq_eq_decide, BitVec.extractLsb'_toNat]

theorem carryRule_eq (r : Word) : carryRule r = decide (255 < r.toNat) := rfl

theorem carry16_eq (x y : Word) : carry16 x y = decide (65535 < x.toNat + y.toNat) := by
  have hx := x.isLt
  have hy := y.isLt
  simp only [carry16, BitVec.toNat_add, BitVec.toNat_setWidth]
  congr 1
  apply propext
  omega

theorem loByte_toNat (r : Word) : (loByte r).toNat = r.toNat % 256 := by
  simp [loByte, BitVec.extractLsb'_toNat]

theorem signRule_eq (r : Word) : signRule r = decide (128 ≤ r.toNat % 256) := by
  simp only [signRule, BitVec.getLsbD, Nat.testBit_eq_decide_div_mod_eq]
  congr 1
  apply propext
  omega

theorem onesBelow_eq (r : Word) (n : Nat) :
    onesBelow r n = ((List.range n).filter fun k => r.toNat.testBit k).length := by
  induction n with
  | zero => rfl
  | succ n ih =>
    rw [List.range_succ, List.filter_append, List.length_append, onesBelow, ih, BitVec.getLsbD]
    cases h : r.toNat.testBit n <;> simp [h, Nat.add_comm]

theorem parityRule_eq (r : Word) : parityRule r = decide (oneBits r.toNat % 2 = 0) := by
  rw [parityRule, popcount, onesBelow_eq, beq_eq_decide]
  rfl

/-- `set_all` writes the flags of the result as a number (41_alu.md R144). -/
theorem flagsOfResult_setAll (r : Word) (f : Flags) : FlagsOfResult r.toNat f (setAll r f) :=
  ⟨zeroRule_eq r, signRule_eq r, parityRule_eq r, rfl, rfl⟩

/-- `set_szp` of a zero-extended byte writes the flags of that byte (41_alu.md R145). -/
theorem flagsOfByte_setSzp (v : Byte) (f : Flags) : FlagsOfByte v.toNat f (setSzp (v.setWidth 16) f) := by
  have h : (v.setWidth 16).toNat = v.toNat := by
    rw [BitVec.toNat_setWidth]
    exact Nat.mod_eq_of_lt (v.isLt.trans (by decide))
  have hv : v.toNat % 256 = v.toNat := Nat.mod_eq_of_lt v.isLt
  refine ⟨?_, ?_, ?_, rfl, rfl⟩
  · simp only [setSzp, zeroRule_eq, h, hv]
  · simp only [setSzp, signRule_eq, h, hv]
  · simp only [setSzp, parityRule_eq, h]

@[simp] theorem setAll_ac (r : Word) (f : Flags) : (setAll r f).ac = f.ac := rfl

@[simp] theorem setSzp_cy (r : Word) (f : Flags) : (setSzp r f).cy = f.cy := rfl

@[simp] theorem setSzp_ac (r : Word) (f : Flags) : (setSzp r f).ac = f.ac := rfl

/-- Popping the status byte a push wrote gives the flags back (46_stack.md R240). -/
@[simp] theorem flagsOfStatus_statusByte (f : Flags) : flagsOfStatus (statusByte f) = f := by
  obtain ⟨z, s, p, cy, ac⟩ := f
  revert z s p cy ac
  decide

theorem statusByte_ac (f : Flags) : (statusByte f).getLsbD 4 = f.ac :=
  congrArg Flags.ac (flagsOfStatus_statusByte f)

end Sys2Proof.Machine
end

