-- ==== Sys2Proof/Laws/Alu.lean ====
section
/-! SUPPORT. Laws/Alu.lean: the 16-bit results of the arithmetic/logical core as numbers, or as a widened byte. -/

namespace Sys2Proof.Machine

theorem addResult_toNat (a v : Byte) (cin : Bool) :
    (addResult a v cin).toNat = a.toNat + v.toNat + cin.toNat := by
  have ha := a.isLt
  have hv := v.isLt
  cases cin <;> simp [addResult, carryIn, BitVec.toNat_add, BitVec.toNat_setWidth] <;> omega

theorem subResult_toNat (a v : Byte) (cin : Bool) :
    (subResult a v cin).toNat =
      if v.toNat + cin.toNat ≤ a.toNat then a.toNat - (v.toNat + cin.toNat)
      else 65536 + a.toNat - (v.toNat + cin.toNat) := by
  have ha := a.isLt
  have hv := v.isLt
  cases cin <;> simp [subResult, carryIn, BitVec.toNat_sub, BitVec.toNat_add, BitVec.toNat_setWidth] <;> split <;> omega

theorem andResult_eq (a v : Byte) : andResult a v = (a &&& v).setWidth 16 := by simp [andResult]

theorem orResult_eq (a v : Byte) : orResult a v = (a ||| v).setWidth 16 := by simp [orResult]

theorem xorResult_eq (a v : Byte) : xorResult a v = (a ^^^ v).setWidth 16 := by simp [xorResult]

end Sys2Proof.Machine
end

