-- ==== Sys2Proof/Laws/Decode.lean ====
section
/-! SUPPORT. Laws/Decode.lean: a form's surplus bytes are ignored, and what decoding three bytes gives. -/

namespace Sys2Proof

/-- A byte without operand bytes is in no family that reads one. -/
theorem classify_of_noOperand : ∀ op : Byte, operandCount op = 0 →
    classify op ≠ some .sta ∧ classify op ≠ some .lda ∧ classify op ≠ some .jump ∧
    (classify op = some .single → (snd op).toNat ≠ 6 ∧
      ((cls op).toNat ≠ 0 → (snd op).toNat = 5 ∨ (snd op).toNat = 1)) := by
  decide +kernel

theorem classify_of_oneOperand : ∀ op : Byte, operandCount op = 1 → classify op = some .single := by
  decide +kernel

theorem operandCount_le_two (op : Byte) : operandCount op ≤ 2 := by
  unfold operandCount
  split
  · exact le_rfl
  · split <;> omega

theorem decodeWith_noOperand {op : Byte} (b1 b2 : Byte) (h : operandCount op = 0) :
    decodeWith op b1 b2 = decodeWith op 0 0 := by
  obtain ⟨hSta, hLda, hJump, hSingle⟩ := classify_of_noOperand op h
  unfold decodeWith
  split <;> first | rfl | simp_all
  next =>
    obtain ⟨h6, h51⟩ := hSingle
    unfold decodeSingle
    split <;> first | rfl | simp_all

theorem decodeWith_oneOperand {op : Byte} (b1 b2 : Byte) (h : operandCount op = 1) :
    decodeWith op b1 b2 = decodeWith op b1 0 := by
  unfold decodeWith
  rw [classify_of_oneOperand op h]

theorem decode_noOperand {op : Byte} (rest : List Byte) (h : operandCount op = 0) :
    decode (op :: rest) = .instr (decodeWith op 0 0) rest := by
  simp only [decode, h]

theorem decode_oneOperand {op : Byte} (b1 : Byte) (rest : List Byte) (h : operandCount op = 1) :
    decode (op :: b1 :: rest) = .instr (decodeWith op b1 0) rest := by
  simp only [decode, h]

theorem decode_twoOperands {op : Byte} (b1 b2 : Byte) (rest : List Byte) (h : operandCount op = 2) :
    decode (op :: b1 :: b2 :: rest) = .instr (decodeWith op b1 b2) rest := by
  simp only [decode, h]

/-- Three bytes always decode, to the instruction of the first with the others as operand bytes. -/
theorem decode_three (op b1 b2 : Byte) : ∃ rest, decode [op, b1, b2] = .instr (decodeWith op b1 b2) rest := by
  have hle := operandCount_le_two op
  obtain hn | hn | hn : operandCount op = 0 ∨ operandCount op = 1 ∨ operandCount op = 2 := by omega
  · exact ⟨[b1, b2], by rw [decode_noOperand _ hn, decodeWith_noOperand b1 b2 hn]⟩
  · exact ⟨[b2], by rw [decode_oneOperand _ _ hn, decodeWith_oneOperand b1 b2 hn]⟩
  · exact ⟨[], decode_twoOperands b1 b2 [] hn⟩

end Sys2Proof
end

