-- ==== Sys2Proof/Laws/State.lean ====
section
/-! SUPPORT. Laws/State.lean: what each update of State leaves in each field, and the register file's read-after-write laws.
With these no proof unfolds a record update. -/

namespace Sys2Proof.Machine

@[simp] theorem State.setReg_regs (s : State) (r : Reg) (v : Byte) : (s.setReg r v).regs = s.regs.set r v := rfl
@[simp] theorem State.setReg_flags (s : State) (r : Reg) (v : Byte) : (s.setReg r v).flags = s.flags := rfl
@[simp] theorem State.setReg_pc (s : State) (r : Reg) (v : Byte) : (s.setReg r v).pc = s.pc := rfl
@[simp] theorem State.setReg_sp (s : State) (r : Reg) (v : Byte) : (s.setReg r v).sp = s.sp := rfl
@[simp] theorem State.setReg_mem (s : State) (r : Reg) (v : Byte) : (s.setReg r v).mem = s.mem := rfl
@[simp] theorem State.setReg_runState (s : State) (r : Reg) (v : Byte) : (s.setReg r v).runState = s.runState := rfl
@[simp] theorem State.setReg_imageLen (s : State) (r : Reg) (v : Byte) : (s.setReg r v).imageLen = s.imageLen := rfl

@[simp] theorem State.setFlags_regs (s : State) (f : Flags) : (s.setFlags f).regs = s.regs := rfl
@[simp] theorem State.setFlags_flags (s : State) (f : Flags) : (s.setFlags f).flags = f := rfl
@[simp] theorem State.setFlags_pc (s : State) (f : Flags) : (s.setFlags f).pc = s.pc := rfl
@[simp] theorem State.setFlags_sp (s : State) (f : Flags) : (s.setFlags f).sp = s.sp := rfl
@[simp] theorem State.setFlags_mem (s : State) (f : Flags) : (s.setFlags f).mem = s.mem := rfl
@[simp] theorem State.setFlags_runState (s : State) (f : Flags) : (s.setFlags f).runState = s.runState := rfl
@[simp] theorem State.setFlags_imageLen (s : State) (f : Flags) : (s.setFlags f).imageLen = s.imageLen := rfl

@[simp] theorem State.setCarry_regs (s : State) (b : Bool) : (s.setCarry b).regs = s.regs := rfl
@[simp] theorem State.setCarry_pc (s : State) (b : Bool) : (s.setCarry b).pc = s.pc := rfl
@[simp] theorem State.setCarry_sp (s : State) (b : Bool) : (s.setCarry b).sp = s.sp := rfl
@[simp] theorem State.setCarry_mem (s : State) (b : Bool) : (s.setCarry b).mem = s.mem := rfl
@[simp] theorem State.setCarry_runState (s : State) (b : Bool) : (s.setCarry b).runState = s.runState := rfl
@[simp] theorem State.setCarry_imageLen (s : State) (b : Bool) : (s.setCarry b).imageLen = s.imageLen := rfl

@[simp] theorem State.setPc_regs (s : State) (v : Word) : (s.setPc v).regs = s.regs := rfl
@[simp] theorem State.setPc_flags (s : State) (v : Word) : (s.setPc v).flags = s.flags := rfl
@[simp] theorem State.setPc_pc (s : State) (v : Word) : (s.setPc v).pc = v := rfl
@[simp] theorem State.setPc_sp (s : State) (v : Word) : (s.setPc v).sp = s.sp := rfl
@[simp] theorem State.setPc_mem (s : State) (v : Word) : (s.setPc v).mem = s.mem := rfl
@[simp] theorem State.setPc_runState (s : State) (v : Word) : (s.setPc v).runState = s.runState := rfl
@[simp] theorem State.setPc_imageLen (s : State) (v : Word) : (s.setPc v).imageLen = s.imageLen := rfl

@[simp] theorem State.setSp_regs (s : State) (v : Word) : (s.setSp v).regs = s.regs := rfl
@[simp] theorem State.setSp_flags (s : State) (v : Word) : (s.setSp v).flags = s.flags := rfl
@[simp] theorem State.setSp_pc (s : State) (v : Word) : (s.setSp v).pc = s.pc := rfl
@[simp] theorem State.setSp_sp (s : State) (v : Word) : (s.setSp v).sp = v := rfl
@[simp] theorem State.setSp_mem (s : State) (v : Word) : (s.setSp v).mem = s.mem := rfl
@[simp] theorem State.setSp_runState (s : State) (v : Word) : (s.setSp v).runState = s.runState := rfl
@[simp] theorem State.setSp_imageLen (s : State) (v : Word) : (s.setSp v).imageLen = s.imageLen := rfl

@[simp] theorem State.setMem_regs (s : State) (m : Memory) : (s.setMem m).regs = s.regs := rfl
@[simp] theorem State.setMem_flags (s : State) (m : Memory) : (s.setMem m).flags = s.flags := rfl
@[simp] theorem State.setMem_pc (s : State) (m : Memory) : (s.setMem m).pc = s.pc := rfl
@[simp] theorem State.setMem_sp (s : State) (m : Memory) : (s.setMem m).sp = s.sp := rfl
@[simp] theorem State.setMem_mem (s : State) (m : Memory) : (s.setMem m).mem = m := rfl
@[simp] theorem State.setMem_runState (s : State) (m : Memory) : (s.setMem m).runState = s.runState := rfl
@[simp] theorem State.setMem_imageLen (s : State) (m : Memory) : (s.setMem m).imageLen = s.imageLen := rfl

@[simp] theorem State.setRunState_regs (s : State) (r : RunState) : (s.setRunState r).regs = s.regs := rfl
@[simp] theorem State.setRunState_flags (s : State) (r : RunState) : (s.setRunState r).flags = s.flags := rfl
@[simp] theorem State.setRunState_pc (s : State) (r : RunState) : (s.setRunState r).pc = s.pc := rfl
@[simp] theorem State.setRunState_sp (s : State) (r : RunState) : (s.setRunState r).sp = s.sp := rfl
@[simp] theorem State.setRunState_mem (s : State) (r : RunState) : (s.setRunState r).mem = s.mem := rfl
@[simp] theorem State.setRunState_runState (s : State) (r : RunState) : (s.setRunState r).runState = r := rfl
@[simp] theorem State.setRunState_imageLen (s : State) (r : RunState) : (s.setRunState r).imageLen = s.imageLen := rfl

@[simp] theorem State.setByteAt_regs (s : State) (a : Word) (v : Byte) : (s.setByteAt a v).regs = s.regs := rfl
@[simp] theorem State.setByteAt_flags (s : State) (a : Word) (v : Byte) : (s.setByteAt a v).flags = s.flags := rfl
@[simp] theorem State.setByteAt_pc (s : State) (a : Word) (v : Byte) : (s.setByteAt a v).pc = s.pc := rfl
@[simp] theorem State.setByteAt_sp (s : State) (a : Word) (v : Byte) : (s.setByteAt a v).sp = s.sp := rfl
@[simp] theorem State.setByteAt_mem (s : State) (a : Word) (v : Byte) : (s.setByteAt a v).mem = s.mem.store a.toNat v := rfl
@[simp] theorem State.setByteAt_runState (s : State) (a : Word) (v : Byte) : (s.setByteAt a v).runState = s.runState := rfl
@[simp] theorem State.setByteAt_imageLen (s : State) (a : Word) (v : Byte) : (s.setByteAt a v).imageLen = s.imageLen := rfl

@[simp] theorem State.setPair_flags (s : State) (p : RegPair) (v : Word) : (s.setPair p v).flags = s.flags := rfl
@[simp] theorem State.setPair_pc (s : State) (p : RegPair) (v : Word) : (s.setPair p v).pc = s.pc := rfl
@[simp] theorem State.setPair_sp (s : State) (p : RegPair) (v : Word) : (s.setPair p v).sp = s.sp := rfl
@[simp] theorem State.setPair_mem (s : State) (p : RegPair) (v : Word) : (s.setPair p v).mem = s.mem := rfl
@[simp] theorem State.setPair_runState (s : State) (p : RegPair) (v : Word) : (s.setPair p v).runState = s.runState := rfl
@[simp] theorem State.setPair_imageLen (s : State) (p : RegPair) (v : Word) : (s.setPair p v).imageLen = s.imageLen := rfl

@[simp] theorem State.setCarry_flags_z (s : State) (b : Bool) : (s.setCarry b).flags.z = s.flags.z := rfl
@[simp] theorem State.setCarry_flags_s (s : State) (b : Bool) : (s.setCarry b).flags.s = s.flags.s := rfl
@[simp] theorem State.setCarry_flags_p (s : State) (b : Bool) : (s.setCarry b).flags.p = s.flags.p := rfl
@[simp] theorem State.setCarry_flags_ac (s : State) (b : Bool) : (s.setCarry b).flags.ac = s.flags.ac := rfl
@[simp] theorem State.setCarry_flags_cy (s : State) (b : Bool) : (s.setCarry b).flags.cy = b := rfl

@[simp] theorem State.reg_setFlags (s : State) (f : Flags) (q : Reg) : (s.setFlags f).reg q = s.reg q := rfl
@[simp] theorem State.pair_setFlags (s : State) (f : Flags) (q : RegPair) : (s.setFlags f).pair q = s.pair q := rfl
@[simp] theorem State.reg_setCarry (s : State) (b : Bool) (q : Reg) : (s.setCarry b).reg q = s.reg q := rfl
@[simp] theorem State.pair_setCarry (s : State) (b : Bool) (q : RegPair) : (s.setCarry b).pair q = s.pair q := rfl
@[simp] theorem State.reg_setPc (s : State) (v : Word) (q : Reg) : (s.setPc v).reg q = s.reg q := rfl
@[simp] theorem State.pair_setPc (s : State) (v : Word) (q : RegPair) : (s.setPc v).pair q = s.pair q := rfl
@[simp] theorem State.reg_setSp (s : State) (v : Word) (q : Reg) : (s.setSp v).reg q = s.reg q := rfl
@[simp] theorem State.pair_setSp (s : State) (v : Word) (q : RegPair) : (s.setSp v).pair q = s.pair q := rfl
@[simp] theorem State.reg_setMem (s : State) (m : Memory) (q : Reg) : (s.setMem m).reg q = s.reg q := rfl
@[simp] theorem State.pair_setMem (s : State) (m : Memory) (q : RegPair) : (s.setMem m).pair q = s.pair q := rfl
@[simp] theorem State.reg_setRunState (s : State) (r : RunState) (q : Reg) : (s.setRunState r).reg q = s.reg q := rfl
@[simp] theorem State.pair_setRunState (s : State) (r : RunState) (q : RegPair) : (s.setRunState r).pair q = s.pair q := rfl
@[simp] theorem State.reg_setByteAt (s : State) (a : Word) (v : Byte) (q : Reg) : (s.setByteAt a v).reg q = s.reg q := rfl
@[simp] theorem State.pair_setByteAt (s : State) (a : Word) (v : Byte) (q : RegPair) : (s.setByteAt a v).pair q = s.pair q := rfl

@[simp] theorem State.byteAt_setReg (s : State) (r : Reg) (v : Byte) (q : Word) : (s.setReg r v).byteAt q = s.byteAt q := rfl
@[simp] theorem State.byteAt_setFlags (s : State) (f : Flags) (q : Word) : (s.setFlags f).byteAt q = s.byteAt q := rfl
@[simp] theorem State.byteAt_setCarry (s : State) (b : Bool) (q : Word) : (s.setCarry b).byteAt q = s.byteAt q := rfl
@[simp] theorem State.byteAt_setPc (s : State) (v : Word) (q : Word) : (s.setPc v).byteAt q = s.byteAt q := rfl
@[simp] theorem State.byteAt_setSp (s : State) (v : Word) (q : Word) : (s.setSp v).byteAt q = s.byteAt q := rfl
@[simp] theorem State.byteAt_setRunState (s : State) (r : RunState) (q : Word) : (s.setRunState r).byteAt q = s.byteAt q := rfl
@[simp] theorem State.byteAt_setPair (s : State) (p : RegPair) (v : Word) (q : Word) : (s.setPair p v).byteAt q = s.byteAt q := rfl

/-! ### Registers: a write is read back, and changes no other register -/

theorem Regs.get_set (x : Regs) (r q : Reg) (v : Byte) : (x.set r v).get q = if q = r then v else x.get q := by
  cases r <;> cases q <;> rfl

@[simp] theorem State.reg_setReg_same (s : State) (r : Reg) (v : Byte) : (s.setReg r v).reg r = v := by
  cases r <;> rfl

theorem State.reg_setReg (s : State) (r q : Reg) (v : Byte) :
    (s.setReg r v).reg q = if q = r then v else s.reg q :=
  Regs.get_set s.regs r q v

theorem State.reg_setReg_other (s : State) {r q : Reg} (v : Byte) (h : q ≠ r) : (s.setReg r v).reg q = s.reg q := by
  rw [State.reg_setReg, if_neg h]

/-- Two register files that read alike are equal. -/
theorem Regs.ext_get {x y : Regs} (h : ∀ r, x.get r = y.get r) : x = y := by
  cases x; cases y
  have hA := h .A; have hB := h .B; have hC := h .C; have hD := h .D
  have hE := h .E; have hH := h .H; have hL := h .L
  simp only [Regs.get] at hA hB hC hD hE hH hL
  subst hA hB hC hD hE hH hL
  rfl

/-! ### Bytes of a 16-bit value, and pairs -/

theorem getLsbD_wordOf (hi lo : Byte) (k : Nat) :
    (wordOf hi lo).getLsbD k = if k < 8 then lo.getLsbD k else hi.getLsbD (k - 8) :=
  BitVec.getLsbD_append (x := hi) (y := lo)

theorem getLsbD_hiByte (v : Word) (k : Nat) : (hiByte v).getLsbD k = (decide (k < 8) && v.getLsbD (8 + k)) :=
  BitVec.getLsbD_extractLsb' 8 8 v k

theorem getLsbD_loByte (v : Word) (k : Nat) : (loByte v).getLsbD k = (decide (k < 8) && v.getLsbD k) :=
  (BitVec.getLsbD_extractLsb' 0 8 v k).trans (by rw [Nat.zero_add])

@[simp] theorem hiByte_wordOf (hi lo : Byte) : hiByte (wordOf hi lo) = hi := by
  refine BitVec.eq_of_getLsbD_eq fun k hk => ?_
  rw [getLsbD_hiByte, getLsbD_wordOf, if_neg (by omega), Nat.add_sub_cancel_left]
  simp [hk]

@[simp] theorem loByte_wordOf (hi lo : Byte) : loByte (wordOf hi lo) = lo := by
  refine BitVec.eq_of_getLsbD_eq fun k hk => ?_
  rw [getLsbD_loByte, getLsbD_wordOf, if_pos hk]
  simp [hk]

@[simp] theorem wordOf_hiByte_loByte (v : Word) : wordOf (hiByte v) (loByte v) = v := by
  refine BitVec.eq_of_getLsbD_eq fun k hk => ?_
  rw [getLsbD_wordOf]
  split
  · next h => simp only [getLsbD_loByte, h, decide_true, Bool.true_and]
  · next h =>
    rw [getLsbD_hiByte, show 8 + (k - 8) = k by omega]
    simp only [show k - 8 < 8 by omega, decide_true, Bool.true_and]

theorem hiReg_ne_loReg (p : RegPair) : hiReg p ≠ loReg p := by cases p <;> decide

@[simp] theorem State.pair_setPair_same (s : State) (p : RegPair) (v : Word) : (s.setPair p v).pair p = v := by
  simp [State.pair, State.setPair, State.reg_setReg, hiReg_ne_loReg]

theorem State.reg_setPair (s : State) (p : RegPair) (v : Word) (q : Reg) :
    (s.setPair p v).reg q = if q = loReg p then loByte v else if q = hiReg p then hiByte v else s.reg q := by
  simp [State.setPair, State.reg_setReg]

theorem State.pair_setPair_other (s : State) {p q : RegPair} (v : Word) (h : q ≠ p) :
    (s.setPair p v).pair q = s.pair q := by
  cases p <;> cases q <;> first | exact absurd rfl h | rfl

end Sys2Proof.Machine
end

