-- ==== Sys2Proof/Laws/Memory.lean ====
section
/-! SUPPORT. Laws/Memory.lean: memory as data (read after write, the canonical form), the port, and what the core's accesses
answer at a 16-bit address. -/

namespace Sys2Proof.Machine

/-! ### Read after write, on any cell list -/

theorem lookupCell_erase (a b : Nat) (cs : List Host.Cell) :
    lookupCell b (eraseCell a cs) = if b = a then Config.coldByte else lookupCell b cs := by
  induction cs with
  | nil => simp [eraseCell, lookupCell]
  | cons c rest ih =>
    obtain ⟨k, v⟩ := c
    by_cases hk : k = a
    · subst hk
      simp only [eraseCell, if_true, ih, lookupCell]
      by_cases hb : b = k
      · simp [hb]
      · simp [hb, Ne.symm hb]
    · by_cases hb : b = a
      · subst hb
        simp [eraseCell, hk, lookupCell, ih]
      · simp [eraseCell, hk, lookupCell, ih, hb]

theorem lookupCell_insert (a b : Nat) (v : Byte) (cs : List Host.Cell)
    (h : lookupCell a cs = Config.coldByte ∧ ∀ c ∈ cs, c.1 ≠ a) :
    lookupCell b (insertCell a v cs) = if b = a then v else lookupCell b cs := by
  induction cs with
  | nil =>
    simp only [insertCell, lookupCell]
    by_cases hb : b = a
    · simp [hb]
    · simp [hb, Ne.symm hb]
  | cons c rest ih =>
    obtain ⟨k, w⟩ := c
    have hk : k ≠ a := h.2 (k, w) (by simp)
    have hr : lookupCell a rest = Config.coldByte ∧ ∀ c ∈ rest, c.1 ≠ a := by
      refine ⟨?_, fun c hc => h.2 c (by simp [hc])⟩
      simpa [lookupCell, hk] using h.1
    by_cases hlt : a < k
    · by_cases hb : b = a
      · simp [insertCell, hlt, lookupCell, hb]
      · simp [insertCell, hlt, lookupCell, hb, Ne.symm hb]
    · by_cases hb : b = a
      · subst hb
        simp [insertCell, hlt, lookupCell, hk, ih hr]
      · simp [insertCell, hlt, lookupCell, ih hr, hb]

theorem eraseCell_absent (a : Nat) (cs : List Host.Cell) : ∀ c ∈ eraseCell a cs, c.1 ≠ a := by
  induction cs with
  | nil => simp [eraseCell]
  | cons c rest ih =>
    obtain ⟨k, v⟩ := c
    by_cases hk : k = a
    · simpa [eraseCell, hk] using ih
    · intro d hd
      simp only [eraseCell, hk, if_false, List.mem_cons] at hd
      rcases hd with rfl | hd
      · exact hk
      · exact ih d hd

/-- A store is read back, and changes no other cell. -/
theorem Memory.load_store (m : Memory) (a b : Nat) (v : Byte) :
    (m.store a v).load b = if b = a then v else m.load b := by
  unfold Memory.store Memory.load
  by_cases hv : v = Config.coldByte
  · simp [hv, lookupCell_erase]
  · simp only [hv, if_false]
    rw [lookupCell_insert _ _ _ _ ⟨by simp [lookupCell_erase], eraseCell_absent a m.cells⟩]
    by_cases hb : b = a
    · simp [hb]
    · simp [hb, lookupCell_erase]

theorem State.byteAt_setByteAt (s : State) (a b : Word) (v : Byte) :
    (s.setByteAt a v).byteAt b = if b = a then v else s.byteAt b := by
  simp only [State.byteAt, State.setByteAt_mem, Memory.load_store]
  by_cases h : b = a
  · simp [h]
  · rw [if_neg h, if_neg (fun e => h (BitVec.eq_of_toNat_eq e))]

@[simp] theorem State.byteAt_setByteAt_same (s : State) (a : Word) (v : Byte) : (s.setByteAt a v).byteAt a = v := by
  rw [State.byteAt_setByteAt, if_pos rfl]

theorem State.byteAt_setByteAt_other (s : State) {a b : Word} (v : Byte) (h : b ≠ a) :
    (s.setByteAt a v).byteAt b = s.byteAt b := by
  rw [State.byteAt_setByteAt, if_neg h]

/-! ### The canonical form -/

theorem wfFrom_cons {lo a : Nat} {v : Byte} {rest : List Host.Cell} :
    wfFrom lo ((a, v) :: rest) = true ↔
      lo ≤ a ∧ a < Config.memSize ∧ v ≠ Config.coldByte ∧ wfFrom (a + 1) rest = true := by
  simp [wfFrom, and_assoc]

theorem wfFrom_mono {lo lo' : Nat} {cs : List Host.Cell} (h : lo' ≤ lo) (w : wfFrom lo cs = true) :
    wfFrom lo' cs = true := by
  cases cs with
  | nil => rfl
  | cons c rest =>
    obtain ⟨a, v⟩ := c
    rw [wfFrom_cons] at w ⊢
    exact ⟨h.trans w.1, w.2⟩

theorem wfFrom_erase (a lo : Nat) (cs : List Host.Cell) (w : wfFrom lo cs = true) :
    wfFrom lo (eraseCell a cs) = true := by
  induction cs generalizing lo with
  | nil => rfl
  | cons c rest ih =>
    obtain ⟨k, v⟩ := c
    rw [wfFrom_cons] at w
    by_cases hk : k = a
    · simp only [eraseCell, hk, if_true]
      exact ih lo (wfFrom_mono (by omega) w.2.2.2)
    · simp only [eraseCell, hk, if_false, wfFrom_cons]
      exact ⟨w.1, w.2.1, w.2.2.1, ih _ w.2.2.2⟩

theorem wfFrom_insert (a lo : Nat) (v : Byte) (cs : List Host.Cell) (w : wfFrom lo cs = true)
    (hlo : lo ≤ a) (ha : a < Config.memSize) (hv : v ≠ Config.coldByte) (hne : ∀ c ∈ cs, c.1 ≠ a) :
    wfFrom lo (insertCell a v cs) = true := by
  induction cs generalizing lo with
  | nil => rw [insertCell, wfFrom_cons]; exact ⟨hlo, ha, hv, rfl⟩
  | cons c rest ih =>
    obtain ⟨k, u⟩ := c
    have hk : k ≠ a := hne (k, u) (by simp)
    rw [wfFrom_cons] at w
    by_cases hlt : a < k
    · simp only [insertCell, hlt, if_true, wfFrom_cons]
      exact ⟨hlo, ha, hv, by omega, w.2⟩
    · simp only [insertCell, hlt, if_false, wfFrom_cons]
      exact ⟨w.1, w.2.1, w.2.2.1, ih (k + 1) w.2.2.2 (by omega) fun c hc => hne c (by simp [hc])⟩

/-- Below its first entry a canonical list reads as unlisted. -/
theorem lookupCell_below {lo a : Nat} {cs : List Host.Cell} (w : wfFrom lo cs = true) (h : a < lo) :
    lookupCell a cs = Config.coldByte := by
  induction cs generalizing lo with
  | nil => rfl
  | cons c rest ih =>
    obtain ⟨k, v⟩ := c
    rw [wfFrom_cons] at w
    rw [lookupCell, if_neg (by omega)]
    exact ih w.2.2.2 (by omega)

/-- A store keeps the canonical form. -/
theorem Memory.store_wf {m : Memory} (a : Nat) (v : Byte) (ha : a < Config.memSize) (w : m.wf = true) :
    (m.store a v).wf = true := by
  unfold Memory.wf Memory.store at *
  by_cases hv : v = Config.coldByte
  · simpa [hv] using wfFrom_erase a 0 _ w
  · simpa [hv] using
      wfFrom_insert a 0 v _ (wfFrom_erase a 0 _ w) (by omega) ha hv (eraseCell_absent a m.cells)

theorem word_lt_memSize (a : Word) : a.toNat < Config.memSize := a.isLt

theorem State.setByteAt_wf {s : State} (a : Word) (v : Byte) (w : s.mem.wf = true) :
    (s.setByteAt a v).mem.wf = true :=
  Memory.store_wf a.toNat v (word_lt_memSize a) w

/-! ### The port, and the core's accesses: at a 16-bit address the bounds error cannot occur (20_memory.md R64) -/

theorem Memory.fetchByte_word (m : Memory) (a : Word) : m.fetchByte a.toNat = .ok (m.load a.toNat) :=
  if_pos (word_lt_memSize a)

theorem Memory.setByte_word (m : Memory) (a : Word) (v : Byte) : m.setByte a.toNat v = .ok (m.store a.toNat v) :=
  if_pos (word_lt_memSize a)

@[simp] theorem memRead_eq (a : Word) (s : State) (k : Byte → Result) : memRead a s k = k (s.byteAt a) := by
  unfold memRead portRead
  rw [Memory.fetchByte_word]
  rfl

@[simp] theorem memRead2_eq (a : Word) (s : State) (k : Word → Result) :
    memRead2 a s k = k (wordOf (s.byteAt (a + 1)) (s.byteAt a)) := by
  simp [memRead2]

@[simp] theorem memWrite_eq (a : Word) (v : Byte) (s : State) (k : State → Result) :
    memWrite a v s k = k (s.setByteAt a v) := by
  unfold memWrite portWrite
  rw [Memory.setByte_word]
  rfl

end Sys2Proof.Machine
end

