-- ==== Sys2Proof/Laws/Operands.lean ====
section
/-! SUPPORT. Laws/Operands.lean: what each shared operation answers, said once, so that no later proof unfolds it. -/

namespace Sys2Proof.Machine

@[simp] theorem advance_eq (len : Word) (s : State) : advance len s = .next (s.setPc (s.pc + len)) := rfl

@[simp] theorem raise_eq (f : Fault) (s : State) : raise f s = .next (s.setRunState (.faulted f)) := rfl

/-- The state with the place `o` holding `v`. -/
def State.put (s : State) (o : Operand) (v : Byte) : State :=
  match o with
  | .reg r => s.setReg r v
  | .mem => s.setByteAt (hlAddr s) v

@[simp] theorem State.put_reg (s : State) (r : Reg) (v : Byte) : s.put (.reg r) v = s.setReg r v := rfl

@[simp] theorem State.put_mem (s : State) (v : Byte) : s.put .mem v = s.setByteAt (s.pair .HL) v := rfl

@[simp] theorem State.put_flags (s : State) (o : Operand) (v : Byte) : (s.put o v).flags = s.flags := by cases o <;> rfl

@[simp] theorem State.put_pc (s : State) (o : Operand) (v : Byte) : (s.put o v).pc = s.pc := by cases o <;> rfl

@[simp] theorem operand_eq (o : Operand) (s : State) (k : Byte → Result) : operand o s k = k (valueOf o s) := by
  cases o
  · rfl
  · exact memRead_eq _ _ _

@[simp] theorem store_eq (o : Operand) (v : Byte) (s : State) (k : State → Result) : store o v s k = k (s.put o v) := by
  cases o
  · rfl
  · exact memWrite_eq _ _ _ _

@[simp] theorem valueOf_reg (r : Reg) (s : State) : valueOf (.reg r) s = s.reg r := rfl

@[simp] theorem valueOf_mem (s : State) : valueOf .mem s = s.byteAt (s.pair .HL) := rfl

/-! ### `byteAfter`: the lookup among the bytes an instruction stores -/

theorem lookup_oneStore (a b : Word) (v old : Byte) :
    (List.lookup a [(b, v)]).getD old = if a = b then v else old := by
  by_cases h : a = b
  · simp [h]
  · simp [List.lookup, beq_false_of_ne h, h]

theorem lookup_twoStores (a b c : Word) (v w old : Byte) :
    (List.lookup a [(b, v), (c, w)]).getD old = if a = b then v else if a = c then w else old := by
  by_cases h : a = b
  · simp [h]
  · rw [List.lookup, beq_false_of_ne h, if_neg h]
    exact lookup_oneStore a c w old

theorem byteAfter_of_noStore {i : Instr} {s : State} (h : storedBytes i s = []) (a : Word) :
    byteAfter i s a = s.byteAt a := by
  rw [byteAfter, h]
  rfl

/-! ### The shared operations of the meanings -/

theorem loadA_eq (a len : Word) (s : State) :
    loadA a len s = .next ((s.setReg .A (s.byteAt a)).setPc (s.pc + len)) := by
  simp [loadA]

theorem move_eq (dst src : Operand) (s : State) :
    move dst src s = .next ((s.put dst (valueOf src s)).setPc (s.pc + 1)) := by
  simp [move]

theorem update_eq (f : Byte → Byte) (o : Operand) (s : State) :
    update f o s = .next (((s.put o (f (valueOf o s))).setFlags
      (setSzp ((f (valueOf o s)).setWidth 16) s.flags)).setPc (s.pc + 1)) := by
  simp [update]

theorem jump_eq (taken : Bool) (a16 : Word) (s : State) :
    jump taken a16 s = .next (s.setPc (if taken then a16 + 1 else s.pc + 3)) := by
  cases taken <;> rfl

theorem push_eq (hi lo : Byte) (s : State) :
    push hi lo s =
      .next ((((s.setByteAt (s.sp - 1) hi).setByteAt (s.sp - 2) lo).setSp (s.sp - 2)).setPc (s.pc + 1)) := by
  simp [push]

/-- POP hands the 16-bit value at sp to `put`; a `put` that keeps pc gives the advance from the old one. -/
theorem pop_eq (put : Word → State → State) (s : State)
    (hpc : ∀ v, (put v s).pc = s.pc) :
    pop put s = .next (((put (wordOf (s.byteAt (s.sp + 1)) (s.byteAt s.sp)) s).setSp (s.sp + 2)).setPc (s.pc + 1)) := by
  simp [pop, hpc]

theorem execPopPsw_eq (s : State) :
    execPopPsw s = .next ((((s.setFlags (flagsOfStatus (s.byteAt s.sp))).setReg .A (s.byteAt (s.sp + 1))).setSp
      (s.sp + 2)).setPc (s.pc + 1)) := by
  unfold execPopPsw
  rw [pop_eq]
  · simp
  · intro v; rfl

theorem execPopRp_eq (p : RegPair) (s : State) :
    execPopRp p s = .next (((s.setPair p (wordOf (s.byteAt (s.sp + 1)) (s.byteAt s.sp))).setSp (s.sp + 2)).setPc
      (s.pc + 1)) := by
  unfold execPopRp
  rw [pop_eq]
  intro v; rfl

end Sys2Proof.Machine
end

