-- ==== Sys2Proof/Laws/Exec.lean ====
section
/-! SUPPORT. Laws/Exec.lean: the state every instruction leaves, in closed form over the field updates, and that `exec` answers
it. Proofs about `exec` rewrite with `exec_eq` and then use the laws of the updates. -/

namespace Sys2Proof.Machine

/-- The state after `i` from `s`, without the memory port's case distinction. -/
def after (i : Instr) (s : State) : State :=
  match i with
  | .nop => s.setPc (s.pc + 1)
  | .stc => (s.setCarry true).setPc (s.pc + 1)
  | .cmc => (s.setCarry (!s.flags.cy)).setPc (s.pc + 1)
  | .hlt => s.setRunState .halted
  | .ldaxB => (s.setReg .A (s.byteAt (s.pair .DE))).setPc (s.pc + 1)
  | .ldaxD => (s.setReg .A (s.byteAt (s.pair .BC))).setPc (s.pc + 1)
  | .sta a => (s.setByteAt a (s.reg .A)).setPc (s.pc + 3)
  | .lda a => (s.setReg .A (s.byteAt a)).setPc (s.pc + 3)
  | .xchg => ((s.setPair .DE (s.pair .HL)).setPair .HL (s.pair .DE)).setPc (s.pc + 1)
  | .jmp a => s.setPc (a + 1)
  | .jnz a => s.setPc (if !s.flags.z then a + 1 else s.pc + 3)
  | .jz a => s.setPc (if s.flags.z then a + 1 else s.pc + 3)
  | .jnc a => s.setPc (if !s.flags.cy then a + 1 else s.pc + 3)
  | .jc a => s.setPc (if s.flags.cy then a + 1 else s.pc + 3)
  | .jpo a => s.setPc (if !s.flags.p then a + 1 else s.pc + 3)
  | .jpe a => s.setPc (if s.flags.p then a + 1 else s.pc + 3)
  | .jp a => s.setPc (if !s.flags.s then a + 1 else s.pc + 3)
  | .jm a => s.setPc (if s.flags.s then a + 1 else s.pc + 3)
  | .inrM => updated increment .mem s
  | .inrR d => updated increment (.reg d) s
  | .dcrM => updated decrement .mem s
  | .dcrR d => updated decrement (.reg d) s
  | .rlc => ((s.setReg .A (rotatedLeft (s.reg .A))).setCarry ((s.reg .A).getLsbD 7)).setPc (s.pc + 1)
  | .rrc => ((s.setReg .A (rotatedRight (s.reg .A))).setCarry ((s.reg .A).getLsbD 0)).setPc (s.pc + 1)
  | .dad y => ((s.setCarry (carry16 (s.pair .HL) (pairOrSp y s))).setPair .HL (s.pair .HL + pairOrSp y s)).setPc (s.pc + 1)
  | .inx (.pair p) => (s.setPair p (s.pair p + 1)).setPc (s.pc + 1)
  | .inx .sp => (s.setSp (s.sp + 1)).setPc (s.pc + 1)
  | .pushPsw => pushed (s.reg .A) (statusByte s.flags) s
  | .pushRp p => pushed (s.reg (hiReg p)) (s.reg (loReg p)) s
  | .popPsw => (((s.setFlags (flagsOfStatus (s.byteAt s.sp))).setReg .A (s.byteAt (s.sp + 1))).setSp
      (s.sp + 2)).setPc (s.pc + 1)
  | .popRp p => ((s.setPair p (wordOf (s.byteAt (s.sp + 1)) (s.byteAt s.sp))).setSp (s.sp + 2)).setPc (s.pc + 1)
  | .mviM v => (s.setByteAt (s.pair .HL) v).setPc (s.pc + 2)
  | .mviR d v => (s.setReg d v).setPc (s.pc + 2)
  | .adi v => computed (addResult (s.reg .A) v false) 2 s
  | .aci v => computed (addResult (s.reg .A) v s.flags.cy) 2 s
  | .sui v => computed (subResult (s.reg .A) v false) 2 s
  | .sbi v => computed (subResult (s.reg .A) v s.flags.cy) 2 s
  | .ani v => computed (andResult (s.reg .A) v) 2 s
  | .xri v => computed (xorResult (s.reg .A) v) 2 s
  | .ori v => computed (orResult (s.reg .A) v) 2 s
  | .cpi v => (s.setFlags (setAll (subResult (s.reg .A) v false) s.flags)).setPc (s.pc + 2)
  | .illegalS07 f => s.setRunState (.faulted (.unrecognizedSubOperation (opcode 0 f 7) s.pc))
  | .illegalS01 p => s.setRunState (.faulted (.unrecognizedSubOperation (pairOpcode 0 p 0 1) s.pc))
  | .illegalS03 p => s.setRunState (.faulted (.unrecognizedSubOperation (pairOpcode 0 p 1 3) s.pc))
  | .illegalS00 f => s.setRunState (.faulted (.unrecognizedSubOperation (opcode 0 f 0) s.pc))
  | .illegalS02 f => s.setRunState (.faulted (.unrecognizedSubOperation (opcode 0 f 2) s.pc))
  | .illegalS35 p => s.setRunState (.faulted (.unrecognizedSubOperation (pairOpcode 3 p 1 5) s.pc))
  | .illegalS31 p => s.setRunState (.faulted (.unrecognizedSubOperation (pairOpcode 3 p 1 1) s.pc))
  | .movMR r => (s.setByteAt (s.pair .HL) (s.reg r)).setPc (s.pc + 1)
  | .movRM d => (s.setReg d (s.byteAt (s.pair .HL))).setPc (s.pc + 1)
  | .movRR d r => (s.setReg d (s.reg r)).setPc (s.pc + 1)
  | .add o => computed (addResult (s.reg .A) (valueOf o s) false) 1 s
  | .adc o => computed (addResult (s.reg .A) (valueOf o s) s.flags.cy) 1 s
  | .sub o => computed (subResult (s.reg .A) (valueOf o s) false) 1 s
  | .sbb o => computed (subResult (s.reg .A) (valueOf o s) s.flags.cy) 1 s
  | .ana o => computed (andResult (s.reg .A) (valueOf o s)) 1 s
  | .xra o => computed (xorResult (s.reg .A) (valueOf o s)) 1 s
  | .ora o => computed (orResult (s.reg .A) (valueOf o s)) 1 s
  | .cmp o => (s.setFlags (setAll (subResult (s.reg .A) (valueOf o s) false) s.flags)).setPc (s.pc + 1)
  | .illegalU30 f => s.setRunState (.faulted (.unrecognizedOpcode (opcode 3 f 0) s.pc))
  | .illegalU34 f => s.setRunState (.faulted (.unrecognizedOpcode (opcode 3 f 4) s.pc))
  | .illegalU37 f => s.setRunState (.faulted (.unrecognizedOpcode (opcode 3 f 7) s.pc))
  | .illegalU33 f => s.setRunState (.faulted (.unrecognizedOpcode (opcode 3 f 3) s.pc))
where
  updated (f : Byte → Byte) (o : Operand) (s : State) : State :=
    ((s.put o (f (valueOf o s))).setFlags (setSzp ((f (valueOf o s)).setWidth 16) s.flags)).setPc (s.pc + 1)
  pushed (hi lo : Byte) (s : State) : State :=
    (((s.setByteAt (s.sp - 1) hi).setByteAt (s.sp - 2) lo).setSp (s.sp - 2)).setPc (s.pc + 1)
  computed (r : Word) (len : Word) (s : State) : State :=
    ((s.setFlags (setAll r s.flags)).setReg .A (loByte r)).setPc (s.pc + len)

/-- `exec` answers that state, for every instruction in every state. -/
theorem exec_eq (i : Instr) (s : State) : exec i s = .next (after i s) := by
  cases i with
  | nop | stc | cmc | hlt | xchg | rlc | rrc | dad y | jmp a => rfl
  | jnz a | jz a | jnc a | jc a | jpo a | jpe a | jp a | jm a => exact jump_eq _ _ _
  | ldaxB | ldaxD | lda a => exact loadA_eq _ _ _
  | sta a => exact memWrite_eq _ _ _ _
  | inrM => exact update_eq increment .mem s
  | inrR d => exact update_eq increment (.reg d) s
  | dcrM => exact update_eq decrement .mem s
  | dcrR d => exact update_eq decrement (.reg d) s
  | inx y => cases y <;> rfl
  | pushPsw | pushRp p => exact push_eq _ _ _
  | popPsw => exact execPopPsw_eq s
  | popRp p => exact execPopRp_eq p s
  | mviM v => exact store_eq .mem v s (advance 2)
  | mviR d v => rfl
  | movMR r => exact move_eq .mem (.reg r) s
  | movRM d => exact move_eq (.reg d) .mem s
  | movRR d r => rfl
  | adi v | aci v | sui v | sbi v | ani v | xri v | ori v | cpi v => rfl
  | add o | adc o | sub o | sbb o | ana o | xra o | ora o | cmp o =>
    simp only [exec, execAdd, execAdc, execSub, execSbb, execAna, execXra, execOra, execCmp, operand_eq]
    rfl
  | illegalS07 f | illegalS00 f | illegalS02 f | illegalU30 f | illegalU34 f | illegalU37 f | illegalU33 f => rfl
  | illegalS01 p | illegalS03 p | illegalS35 p | illegalS31 p => rfl

/-- What `exec` answers is that state and nothing else. -/
theorem exec_next_iff {i : Instr} {s t : State} : exec i s = .next t ↔ t = after i s := by
  rw [exec_eq]
  exact ⟨fun h => by cases h; rfl, fun h => by rw [h]⟩

end Sys2Proof.Machine
end

