-- ==== Sys2Proof/Laws/HostPort.lean ====
section
/-! SUPPORT. Laws/HostPort.lean: what a loaded image leaves in memory. -/

namespace Sys2Proof.Machine

/-- A cell of a loaded image holds its byte, and every cell outside it reads as zero. -/
theorem lookupCell_cellsFrom (image : List Byte) (lo a : Nat) :
    lookupCell a (cellsFrom lo image) = if a < lo then 0 else image.getD (a - lo) 0 := by
  induction image generalizing lo with
  | nil => simp [cellsFrom, lookupCell, Config.coldByte]
  | cons b bs ih =>
    have key : (if a < lo + 1 then 0 else bs.getD (a - (lo + 1)) 0) =
        if a = lo then 0 else if a < lo then 0 else (b :: bs).getD (a - lo) 0 := by
      by_cases e : a = lo
      · simp [e]
      · by_cases hlt : a < lo
        · simp only [e, hlt, if_false, if_true]
          rw [if_pos (by omega)]
        · rw [if_neg (by omega), if_neg e, if_neg hlt, show a - lo = (a - (lo + 1)) + 1 by omega]
          rfl
    unfold cellsFrom
    split
    · next hb =>
      rw [ih, key]
      by_cases e : a = lo
      · simp [e, hb, Config.coldByte]
      · simp [e]
    · rw [lookupCell, ih, key]
      by_cases e : a = lo
      · simp [e]
      · simp [e, Ne.symm e]

/-- A loaded image is in canonical form. -/
theorem wfFrom_cellsFrom (image : List Byte) {lo lo' : Nat} (hl : lo' ≤ lo)
    (h : lo + image.length ≤ Config.memSize) : wfFrom lo' (cellsFrom lo image) = true := by
  induction image generalizing lo lo' with
  | nil => rfl
  | cons b bs ih =>
    rw [List.length_cons] at h
    unfold cellsFrom
    split
    · exact ih (by omega) (by omega)
    · next hb =>
      rw [wfFrom_cons]
      exact ⟨hl, by omega, hb, ih le_rfl (by omega)⟩

/-- `run` does nothing to a machine that is not RUNNING. -/
theorem run_of_stopped {s : State} (n : Nat) (h : s.runState ≠ .running) : run n s = .next s := by
  cases n with
  | zero => rfl
  | succ n => simp [run, State.isRunning, h]

end Sys2Proof.Machine
end

