-- ==== Sys2Proof/Laws/PerInstr.lean ====
section
/-! SUPPORT. Laws/PerInstr.lean: one fact about every instruction as syntax: how many bytes its encoding has. -/

namespace Sys2Proof.Laws.EncodeLength

/-- The encoding has as many bytes as the instruction's length; a fatal row, of length 0, is its opcode byte alone
(30_encoding.md R85, R100). -/
def Statement (i : Instr) : Prop := (encode i).length = if Machine.fatal i then 1 else i.length

theorem nop : Statement .nop := rfl
theorem stc : Statement .stc := rfl
theorem cmc : Statement .cmc := rfl
theorem hlt : Statement .hlt := rfl
theorem ldaxB : Statement .ldaxB := rfl
theorem ldaxD : Statement .ldaxD := rfl
theorem sta (a16 : Word) : Statement (.sta a16) := rfl
theorem lda (a16 : Word) : Statement (.lda a16) := rfl
theorem xchg : Statement .xchg := rfl
theorem jmp (a16 : Word) : Statement (.jmp a16) := rfl
theorem jnz (a16 : Word) : Statement (.jnz a16) := rfl
theorem jz (a16 : Word) : Statement (.jz a16) := rfl
theorem jnc (a16 : Word) : Statement (.jnc a16) := rfl
theorem jc (a16 : Word) : Statement (.jc a16) := rfl
theorem jpo (a16 : Word) : Statement (.jpo a16) := rfl
theorem jpe (a16 : Word) : Statement (.jpe a16) := rfl
theorem jp (a16 : Word) : Statement (.jp a16) := rfl
theorem jm (a16 : Word) : Statement (.jm a16) := rfl
theorem inrM : Statement .inrM := rfl
theorem inrR (d : Reg) : Statement (.inrR d) := rfl
theorem dcrM : Statement .dcrM := rfl
theorem dcrR (d : Reg) : Statement (.dcrR d) := rfl
theorem rlc : Statement .rlc := rfl
theorem rrc : Statement .rrc := rfl
theorem dad (y : PairOrSp) : Statement (.dad y) := rfl
theorem inx (y : PairOrSp) : Statement (.inx y) := rfl
theorem pushPsw : Statement .pushPsw := rfl
theorem pushRp (p : RegPair) : Statement (.pushRp p) := rfl
theorem popPsw : Statement .popPsw := rfl
theorem popRp (p : RegPair) : Statement (.popRp p) := rfl
theorem mviM (d8 : Byte) : Statement (.mviM d8) := rfl
theorem mviR (d : Reg) (d8 : Byte) : Statement (.mviR d d8) := rfl
theorem adi (d8 : Byte) : Statement (.adi d8) := rfl
theorem aci (d8 : Byte) : Statement (.aci d8) := rfl
theorem sui (d8 : Byte) : Statement (.sui d8) := rfl
theorem sbi (d8 : Byte) : Statement (.sbi d8) := rfl
theorem ani (d8 : Byte) : Statement (.ani d8) := rfl
theorem xri (d8 : Byte) : Statement (.xri d8) := rfl
theorem ori (d8 : Byte) : Statement (.ori d8) := rfl
theorem cpi (d8 : Byte) : Statement (.cpi d8) := rfl
theorem illegalS07 (f : BitVec 3) : Statement (.illegalS07 f) := rfl
theorem illegalS01 (p : BitVec 2) : Statement (.illegalS01 p) := rfl
theorem illegalS03 (p : BitVec 2) : Statement (.illegalS03 p) := rfl
theorem illegalS00 (f : BitVec 3) : Statement (.illegalS00 f) := rfl
theorem illegalS02 (f : BitVec 3) : Statement (.illegalS02 f) := rfl
theorem illegalS35 (p : BitVec 2) : Statement (.illegalS35 p) := rfl
theorem illegalS31 (p : BitVec 2) : Statement (.illegalS31 p) := rfl
theorem movMR (r : Reg) : Statement (.movMR r) := rfl
theorem movRM (d : Reg) : Statement (.movRM d) := rfl
theorem movRR (d : Reg) (r : Reg) : Statement (.movRR d r) := rfl
theorem add (o : Operand) : Statement (.add o) := rfl
theorem adc (o : Operand) : Statement (.adc o) := rfl
theorem sub (o : Operand) : Statement (.sub o) := rfl
theorem sbb (o : Operand) : Statement (.sbb o) := rfl
theorem ana (o : Operand) : Statement (.ana o) := rfl
theorem xra (o : Operand) : Statement (.xra o) := rfl
theorem ora (o : Operand) : Statement (.ora o) := rfl
theorem cmp (o : Operand) : Statement (.cmp o) := rfl
theorem illegalU30 (f : BitVec 3) : Statement (.illegalU30 f) := rfl
theorem illegalU34 (f : BitVec 3) : Statement (.illegalU34 f) := rfl
theorem illegalU37 (f : BitVec 3) : Statement (.illegalU37 f) := rfl
theorem illegalU33 (f : BitVec 3) : Statement (.illegalU33 f) := rfl

end Sys2Proof.Laws.EncodeLength
end

