-- ==== Sys2Proof/Laws/Step.lean ====
section
/-! SUPPORT. Laws/Step.lean: what one step does, said once: it runs the instruction at pc, ends the run, or leaves a stopped
machine alone. -/

namespace Sys2Proof.Machine

theorem fetchInstr_eq (s : State) (k : Instr → Result) :
    fetchInstr s k = k (decodeWith (s.byteAt s.pc) (s.byteAt (s.pc + 1)) (s.byteAt (s.pc + 2))) := by
  unfold fetchInstr
  simp only [memRead_eq]
  split
  · next h => rw [decodeWith_noOperand (s.byteAt (s.pc + 1)) _ h]
  · next h => rw [← decodeWith_oneOperand _ (s.byteAt (s.pc + 2)) h]
  · rfl

theorem step_of_fetches {s : State} (h : s.fetches) :
    step s = exec (decodeWith (s.byteAt s.pc) (s.byteAt (s.pc + 1)) (s.byteAt (s.pc + 2))) s := by
  have hp : pastImage s = false := by simpa [pastImage] using h.2
  unfold step
  rw [h.1]
  simp [hp, fetchInstr_eq]

theorem step_of_imageEnd {s : State} (hr : s.runState = .running) (h : s.imageLen ≤ s.pc.toNat) :
    step s = .next (s.setRunState .ended) := by
  unfold step
  rw [hr]
  simp [pastImage, h]

theorem step_of_stopped {s : State} (h : s.runState ≠ .running) : step s = .next s := by
  unfold step
  split <;> simp_all

/-- The three cases of a step, exhaustive. -/
theorem step_cases (s : State) :
    (s.fetches ∧ step s = exec (decodeWith (s.byteAt s.pc) (s.byteAt (s.pc + 1)) (s.byteAt (s.pc + 2))) s) ∨
    (s.runState = .running ∧ s.imageLen ≤ s.pc.toNat ∧ step s = .next (s.setRunState .ended)) ∨
    (s.runState ≠ .running ∧ step s = .next s) := by
  by_cases hr : s.runState = .running
  · by_cases h : s.pc.toNat < s.imageLen
    · exact .inl ⟨⟨hr, h⟩, step_of_fetches ⟨hr, h⟩⟩
    · exact .inr (.inl ⟨hr, by omega, step_of_imageEnd hr (by omega)⟩)
  · exact .inr (.inr ⟨hr, step_of_stopped hr⟩)

end Sys2Proof.Machine
end

