-- ==== Sys2Proof/Tests/Slice0.lean ====
section
/-! SUPPORT. Tests/Slice0.lean: the model against the spec's own words, encodings and vectors, and for every obligation with
hypotheses a concrete state that meets them. Expected values come from spec/30_encoding.md, spec/opcode_table.json and
spec/95_test_vectors.md (its vector ids V-.. and E.. are named), never from the model. -/

namespace Sys2Proof.Tests

open Sys2Proof.Machine

/-! ### Ill-formed terms are refused: one for each check of `wellFormed` -/

theorem test_wellFormed_rotate_refused : (Instr.illegalS07 1).wellFormed = false := by decide
theorem test_wellFormed_zeroZero_refused : (Instr.illegalS00 0).wellFormed = false := by decide
theorem test_wellFormed_zeroTwo_refused : (Instr.illegalS02 7).wellFormed = false := by decide
theorem test_wellFormed_threeThree_refused : (Instr.illegalU33 5).wellFormed = false := by decide
theorem test_wellFormed_accepts :
    ([.illegalS07 2, .illegalS00 1, .illegalS02 5, .illegalU33 7, .movRR .B .C] : List Instr).all Instr.wellFormed = true := by
  decide

/-! ### Decoding: a word of every constructor, written out from the encodings of 30_encoding.md R81 to R95 -/

/-- What a byte list decodes to, when nothing is left over. -/
def only (bs : List Byte) : Option Instr :=
  match decode bs with
  | .instr i [] => some i
  | .instr _ _ => none
  | .rejected _ => none

theorem test_decode_control :
    only [0b00000000] = some .nop ∧
    only [0b00110111] = some .stc ∧
    only [0b00111111] = some .cmc ∧
    only [0b01110110] = some .hlt := by
  decide

theorem test_decode_transfer :
    only [0b00001010] = some .ldaxB ∧
    only [0b00011010] = some .ldaxD ∧
    only [0b00110010, 0x34, 0x12] = some (.sta 0x1234) ∧
    only [0b00111010, 0x34, 0x12] = some (.lda 0x1234) ∧
    only [0b11101011] = some .xchg ∧
    only [0b00110110, 0x55] = some (.mviM 0x55) ∧
    only [0b00101110, 0x55] = some (.mviR .L 0x55) ∧
    only [0b01110010] = some (.movMR .D) ∧
    only [0b01011110] = some (.movRM .E) ∧
    only [0b01100001] = some (.movRR .H .C) := by
  decide

theorem test_decode_jump :
    only [0b11000011, 0x34, 0x12] = some (.jmp 0x1234) ∧
    only [0b11000010, 0x34, 0x12] = some (.jnz 0x1234) ∧
    only [0b11001010, 0x34, 0x12] = some (.jz 0x1234) ∧
    only [0b11010010, 0x34, 0x12] = some (.jnc 0x1234) ∧
    only [0b11011010, 0x34, 0x12] = some (.jc 0x1234) ∧
    only [0b11100010, 0x34, 0x12] = some (.jpo 0x1234) ∧
    only [0b11101010, 0x34, 0x12] = some (.jpe 0x1234) ∧
    only [0b11110010, 0x34, 0x12] = some (.jp 0x1234) ∧
    only [0b11111010, 0x34, 0x12] = some (.jm 0x1234) := by
  decide

theorem test_decode_single :
    only [0b00110100] = some .inrM ∧
    only [0b00000100] = some (.inrR .B) ∧
    only [0b00110101] = some .dcrM ∧
    only [0b00111101] = some (.dcrR .A) ∧
    only [0b00000111] = some .rlc ∧
    only [0b00001111] = some .rrc ∧
    only [0b00101001] = some (.dad (.pair .HL)) ∧
    only [0b00111001] = some (.dad .sp) ∧
    only [0b00010011] = some (.inx (.pair .DE)) ∧
    only [0b00110011] = some (.inx .sp) := by
  decide

theorem test_decode_stack :
    only [0b11110101] = some .pushPsw ∧
    only [0b11000101] = some (.pushRp .BC) ∧
    only [0b11110001] = some .popPsw ∧
    only [0b11100001] = some (.popRp .HL) := by
  decide

theorem test_decode_immediate :
    only [0b11000110, 0x9C] = some (.adi 0x9C) ∧
    only [0b11001110, 0x9C] = some (.aci 0x9C) ∧
    only [0b11010110, 0x9C] = some (.sui 0x9C) ∧
    only [0b11011110, 0x9C] = some (.sbi 0x9C) ∧
    only [0b11100110, 0x9C] = some (.ani 0x9C) ∧
    only [0b11101110, 0x9C] = some (.xri 0x9C) ∧
    only [0b11110110, 0x9C] = some (.ori 0x9C) ∧
    only [0b11111110, 0x9C] = some (.cpi 0x9C) := by
  decide

theorem test_decode_alu :
    only [0b10000000] = some (.add (.reg .B)) ∧
    only [0b10001001] = some (.adc (.reg .C)) ∧
    only [0b10010010] = some (.sub (.reg .D)) ∧
    only [0b10011011] = some (.sbb (.reg .E)) ∧
    only [0b10100100] = some (.ana (.reg .H)) ∧
    only [0b10101101] = some (.xra (.reg .L)) ∧
    only [0b10110110] = some (.ora .mem) ∧
    only [0b10111111] = some (.cmp (.reg .A)) := by
  decide

theorem test_decode_fatal :
    only [0b00010111] = some (.illegalS07 2) ∧
    only [0b00000001] = some (.illegalS01 0) ∧
    only [0b00111011] = some (.illegalS03 3) ∧
    only [0b00001000] = some (.illegalS00 1) ∧
    only [0b00101010] = some (.illegalS02 5) ∧
    only [0b11001101] = some (.illegalS35 0) ∧
    only [0b11001001] = some (.illegalS31 0) ∧
    only [0b11000000] = some (.illegalU30 0) ∧
    only [0b11001100] = some (.illegalU34 1) ∧
    only [0b11111111] = some (.illegalU37 7) ∧
    only [0b11010011] = some (.illegalU33 2) := by
  decide

/-- Too few bytes are no instruction. -/
theorem test_decode_rejects : decode [] = .rejected .noOpcode ∧ decode [0x3E] = .rejected .truncated ∧
    decode [0xC3, 0x00] = .rejected .truncated := by
  decide

/-! ### The whole opcode table: for each byte the first row that matches is the constructor the decoder gives -/

/-- A row's match, mask and excluded bytes. -/
abbrev Row := Nat × Nat × List Nat

/-- Rows 1 of spec/opcode_table.json, in its order. -/
def rows1 : List Row :=
  [(0x00, 0xFF, []), (0x37, 0xFF, []), (0x3F, 0xFF, []), (0x76, 0xFF, []), (0x0A, 0xFF, []), (0x1A, 0xFF, []),
   (0x32, 0xFF, []), (0x3A, 0xFF, []), (0xEB, 0xFF, []), (0xC3, 0xFF, []), (0xC2, 0xFF, []), (0xCA, 0xFF, []),
   (0xD2, 0xFF, []), (0xDA, 0xFF, []), (0xE2, 0xFF, []), (0xEA, 0xFF, []), (0xF2, 0xFF, []), (0xFA, 0xFF, []),
   (0x34, 0xFF, []), (0x04, 0xC7, [0x34])]

/-- Rows 2 of spec/opcode_table.json, in its order. -/
def rows2 : List Row :=
  [(0x35, 0xFF, []), (0x05, 0xC7, [0x35]), (0x07, 0xFF, []), (0x0F, 0xFF, []), (0x09, 0xCF, []), (0x03, 0xCF, []),
   (0xF5, 0xFF, []), (0xC5, 0xCF, [0xF5]), (0xF1, 0xFF, []), (0xC1, 0xCF, [0xF1]), (0x36, 0xFF, []),
   (0x06, 0xC7, [0x36]), (0xC6, 0xFF, []), (0xCE, 0xFF, []), (0xD6, 0xFF, []), (0xDE, 0xFF, []), (0xE6, 0xFF, []),
   (0xEE, 0xFF, []), (0xF6, 0xFF, []), (0xFE, 0xFF, [])]

/-- Rows 3 of spec/opcode_table.json, in its order. -/
def rows3 : List Row :=
  [(0x07, 0xC7, [0x07, 0x0F, 0x37, 0x3F]), (0x01, 0xCF, []), (0x0B, 0xCF, []), (0x00, 0xC7, [0x00]),
   (0x02, 0xC7, [0x0A, 0x1A, 0x32, 0x3A]), (0xCD, 0xCF, []), (0xC9, 0xCF, []), (0x70, 0xF8, [0x76]),
   (0x46, 0xC7, [0x76]),
   (0x40, 0xC0, [0x46, 0x4E, 0x56, 0x5E, 0x66, 0x6E, 0x70, 0x71, 0x72, 0x73, 0x74, 0x75, 0x76, 0x77, 0x7E]),
   (0x80, 0xF8, []), (0x88, 0xF8, []), (0x90, 0xF8, []), (0x98, 0xF8, []), (0xA0, 0xF8, []), (0xA8, 0xF8, []),
   (0xB0, 0xF8, []), (0xB8, 0xF8, []), (0xC0, 0xC7, []), (0xC4, 0xC7, []), (0xC7, 0xC7, []),
   (0xC3, 0xC7, [0xC3, 0xEB])]

/-- The byte matches the row. -/
def Row.holds (r : Row) (b : Nat) : Bool := (b &&& r.2.1) == r.1 && !r.2.2.contains b

/-- Constructors stand in the table's order, so a row's position is its constructor's index. -/
theorem test_table_agrees :
    (List.range 256).all (fun b =>
      (rows1 ++ rows2 ++ rows3).findIdx (fun r => r.holds b) == (decodeWith (BitVec.ofNat 8 b) 0 0).ctorIdx) = true := by
  decide +kernel

/-- No byte matches two rows. -/
theorem test_table_rows_disjoint :
    (List.range 256).all (fun b => ((rows1 ++ rows2 ++ rows3).filter (fun r => r.holds b)).length == 1) = true := by
  decide +kernel

/-! ### One step: the vectors of 95_test_vectors.md -/

/-- The machine on an image, as at reset otherwise. -/
def boot (image : List Byte) : State :=
  { State.reset with mem := Memory.ofImage image, imageLen := image.length }

/-- The same with A and carry preset. -/
def bootA (image : List Byte) (a : Byte) (cy : Bool := false) : State := ((boot image).setReg .A a).setCarry cy

/-- The flags `z s p cy ac` as 0 or 1. -/
def flagBits (s : State) : List Nat :=
  [s.flags.z.toNat, s.flags.s.toNat, s.flags.p.toNat, s.flags.cy.toNat, s.flags.ac.toNat]

/-- What one step leaves, seen through `f`. -/
def sees {α : Type} (f : State → α) (s : State) : Option α :=
  match step s with
  | .next t => some (f t)
  | .fault _ => none
  | .refused _ => none

/-- A, the flags and pc. -/
def aluView (s : State) : Byte × List Nat × Word := (s.reg .A, flagBits s, s.pc)

/-- V-AL-1 -/
theorem test_add_register : sees aluView ((bootA [0x80] 0x3C false).setReg .B 0x2A) = some (0x66, [0, 0, 1, 0, 0], 1) := by decide
/-- V-AL-2 -/
theorem test_add_self_keeps_ac : sees aluView ((bootA [0x87] 0x80 false).setFlags ⟨false, false, false, false, true⟩) = some (0x00, [1, 0, 0, 1, 1], 1) := by decide
/-- V-AL-3 -/
theorem test_add_memory : sees aluView (((bootA [0x86] 0x7F false).setReg .H 0x20).setByteAt 0x2000 0x01) = some (0x80, [0, 1, 0, 0, 0], 1) := by decide
/-- V-AL-4 -/
theorem test_adc_carry_in : sees aluView (bootA [0x89] 0xFF true) = some (0x00, [1, 0, 0, 1, 0], 1) := by decide
/-- V-AL-6 -/
theorem test_sub_borrow : sees aluView ((bootA [0x90] 0x05 false).setReg .B 0x06) = some (0xFF, [0, 1, 1, 1, 0], 1) := by decide
/-- V-AL-7 -/
theorem test_sub_self : sees aluView (bootA [0x97] 0xC3 true) = some (0x00, [1, 0, 1, 0, 0], 1) := by decide
/-- V-AL-8 -/
theorem test_sbb_full_borrow : sees aluView ((bootA [0x98] 0x00 true).setReg .B 0xFF) = some (0x00, [1, 0, 1, 1, 0], 1) := by decide
/-- V-AL-9 -/
theorem test_sbb_carry_in : sees aluView ((bootA [0x99] 0x10 true).setReg .C 0x01) = some (0x0E, [0, 0, 0, 0, 0], 1) := by decide
/-- V-AL-10 -/
theorem test_ana_clears_carry : sees aluView ((bootA [0xA0] 0xF0 true).setReg .B 0x3C) = some (0x30, [0, 0, 1, 0, 0], 1) := by decide
/-- V-AL-11 -/
theorem test_xra_self : sees aluView (bootA [0xAF] 0x5B true) = some (0x00, [1, 0, 1, 0, 0], 1) := by decide
/-- V-AL-12 -/
theorem test_xra_register : sees aluView ((bootA [0xA8] 0xFF false).setReg .B 0x0F) = some (0xF0, [0, 1, 1, 0, 0], 1) := by decide
/-- V-AL-13 -/
theorem test_ora_memory : sees aluView (((bootA [0xB6] 0x0F true).setReg .L 0x10).setByteAt 0x0010 0xF0) = some (0xFF, [0, 1, 1, 0, 0], 1) := by decide
/-- V-AL-14 -/
theorem test_cmp_equal : sees aluView ((bootA [0xBB] 0x10 true).setReg .E 0x10) = some (0x10, [1, 0, 1, 0, 0], 1) := by decide
/-- V-AL-15 -/
theorem test_cmp_smaller : sees aluView ((bootA [0xBB] 0x10 false).setReg .E 0x20) = some (0x10, [0, 1, 1, 1, 0], 1) := by decide
/-- V-AI-1 -/
theorem test_adi : sees aluView (bootA [0xC6, 0x01] 0xFF false) = some (0x00, [1, 0, 0, 1, 0], 2) := by decide
/-- V-AI-2 -/
theorem test_aci : sees aluView (bootA [0xCE, 0x10] 0x0F true) = some (0x20, [0, 0, 0, 0, 0], 2) := by decide
/-- V-AI-3 -/
theorem test_sui : sees aluView (bootA [0xD6, 0x01] 0x00 false) = some (0xFF, [0, 1, 1, 1, 0], 2) := by decide
/-- V-AI-4 -/
theorem test_sbi : sees aluView (bootA [0xDE, 0xFF] 0x00 true) = some (0x00, [1, 0, 1, 1, 0], 2) := by decide
/-- V-AI-5 -/
theorem test_ani : sees aluView (bootA [0xE6, 0x0F] 0xAB true) = some (0x0B, [0, 0, 0, 0, 0], 2) := by decide
/-- V-AI-6 -/
theorem test_xri : sees aluView (bootA [0xEE, 0xFF] 0xAA false) = some (0x55, [0, 0, 1, 0, 0], 2) := by decide
/-- V-AI-7 -/
theorem test_ori : sees aluView (bootA [0xF6, 0x80] 0x01 false) = some (0x81, [0, 1, 1, 0, 0], 2) := by decide
/-- V-AI-8 -/
theorem test_cpi_equal : sees aluView (bootA [0xFE, 0x40] 0x40 true) = some (0x40, [1, 0, 1, 0, 0], 2) := by decide
/-- V-AI-9 -/
theorem test_cpi_smaller : sees aluView (bootA [0xFE, 0x41] 0x40 false) = some (0x40, [0, 1, 1, 1, 0], 2) := by decide
/-- V-SO-10 (E4) -/
theorem test_rlc : sees aluView (bootA [0x07] 0xF2 false) = some (0xE5, [0, 0, 0, 1, 0], 1) := by decide
/-- V-SO-12 -/
theorem test_rlc_overwrites_carry : sees aluView (bootA [0x07] 0x40 true) = some (0x80, [0, 0, 0, 0, 0], 1) := by decide
/-- V-SO-13 (E4) -/
theorem test_rrc : sees aluView (bootA [0x0F] 0xF2 true) = some (0x79, [0, 0, 0, 0, 0], 1) := by decide
/-- V-SO-14 -/
theorem test_rrc_carry_out : sees aluView (bootA [0x0F] 0x01 false) = some (0x80, [0, 0, 0, 1, 0], 1) := by decide
/-- V-SO-3 -/
theorem test_inr_wraps_keeps_carry : sees aluView (bootA [0x3C] 0xFF true) = some (0x00, [1, 0, 1, 1, 0], 1) := by decide
/-- V-SO-8 -/
theorem test_dcr_to_zero_keeps_carry : sees aluView (bootA [0x3D] 0x01 true) = some (0x00, [1, 0, 1, 1, 0], 1) := by decide

/-- V-CT-1 -/
theorem test_nop :
    sees (fun t => (t.reg .A, flagBits t, t.pc)) (((boot [0x00]).setReg .A 0x12).setFlags ⟨true, false, false, true, false⟩) =
      some (0x12, [1, 0, 0, 1, 0], 1) := by
  decide
/-- V-CT-2 -/
theorem test_stc :
    sees (fun t => (flagBits t, t.pc)) ((boot [0x37]).setFlags ⟨true, false, true, false, false⟩) =
      some ([1, 0, 1, 1, 0], 1) := by
  decide
/-- V-CT-5 -/
theorem test_cmc :
    sees (fun t => (flagBits t, t.pc)) ((boot [0x3F]).setFlags ⟨false, true, false, true, false⟩) =
      some ([0, 1, 0, 0, 0], 1) := by
  decide
/-- V-CT-6 -/
theorem test_hlt :
    sees (fun t => (t.runState, t.pc, t.reg .B)) ((boot [0x76, 0x04]).setReg .B 0x07) =
      some (.halted, 0, 0x07) := by
  decide
/-- V-CT-7: the 0x04 is never run. -/
theorem test_halted_absorbs : step ((boot [0x76, 0x04]).setRunState .halted) = .next ((boot [0x76, 0x04]).setRunState .halted) := rfl
/-- V-TR-1 -/
theorem test_mov_register :
    sees (fun t => (t.reg .B, t.reg .C, t.pc)) (((boot [0x41]).setReg .B 0x11).setReg .C 0x22) =
      some (0x22, 0x22, 1) := by
  decide
/-- V-TR-4 -/
theorem test_mov_from_memory :
    sees (fun t => (t.reg .A, t.pc)) ((((boot [0x7E]).setReg .H 0x12).setReg .L 0x34).setByteAt 0x1234 0xAB) =
      some (0xAB, 1) := by
  decide
/-- V-TR-6 -/
theorem test_mov_to_memory :
    sees (fun t => (t.byteAt 0x0080, t.byteAt 0x0081, t.pc)) (((boot [0x74]).setReg .L 0x80).setByteAt 0x0080 0xFF) =
      some (0x00, 0x00, 1) := by
  decide
/-- V-TR-7 -/
theorem test_mvi_register : sees (fun t => (t.reg .A, t.pc)) (boot [0x3E, 0x99]) = some (0x99, 2) := by decide
/-- V-TR-9 -/
theorem test_mvi_memory_onto_itself : sees (fun t => (t.byteAt 0, t.pc)) (boot [0x36, 0x55]) = some (0x55, 2) := by decide
/-- V-TR-10 -/
theorem test_ldax_0A_uses_DE :
    sees (fun t => (t.reg .A, t.pc)) (((((boot [0x0A]).setReg .E 0x40).setReg .C 0x50).setByteAt 0x0040 0x11).setByteAt 0x0050 0x22) =
      some (0x11, 1) := by
  decide
/-- V-TR-11 -/
theorem test_ldax_1A_uses_BC :
    sees (fun t => (t.reg .A, t.pc)) (((((boot [0x1A]).setReg .E 0x40).setReg .C 0x50).setByteAt 0x0040 0x11).setByteAt 0x0050 0x22) =
      some (0x22, 1) := by
  decide
/-- V-TR-12 -/
theorem test_lda_little_endian :
    sees (fun t => (t.reg .A, t.pc)) (boot [0x3A, 0x05, 0x00, 0x00, 0x00, 0xEE]) =
      some (0xEE, 3) := by
  decide
/-- V-TR-14: operand bytes and pc wrap, IMAGE_LEN 65536. -/
theorem test_lda_wraps :
    sees (fun t => (t.reg .A, t.pc))
      ({ (((((boot [0xAA, 0x12]).setPc 0xFFFE).setByteAt 0xFFFE 0x3A).setByteAt 0xFFFF 0x01).setByteAt 0xAA01 0x5C) with imageLen := 65536 } : State) =
      some (0x5C, 0x0001) := by
  decide
/-- V-TR-13 -/
theorem test_sta_last_cell :
    sees (fun t => (t.byteAt 0xFFFF, t.pc)) ((boot [0x32, 0xFF, 0xFF]).setReg .A 0x77) =
      some (0x77, 3) := by
  decide
/-- V-TR-15 -/
theorem test_xchg :
    sees (fun t => (t.reg .D, t.reg .E, t.reg .H, t.reg .L)) (((((boot [0xEB]).setReg .D 0x01).setReg .E 0x02).setReg .H 0x03).setReg .L 0x04) =
      some (0x03, 0x04, 0x01, 0x02) := by
  decide

/-- Where a jump of opcode `op` to 0x1234 lands with the given flags. -/
def lands (op : Byte) (f : Flags) : Option Word := sees (fun t => t.pc) ((boot [op, 0x34, 0x12]).setFlags f)

/-- V-JP-1 to V-JP-8: every other flag opposite to the one tested. -/
theorem test_conditional_jumps :
    [lands 0xC2 ⟨false, true, true, true, true⟩, lands 0xC2 ⟨true, false, false, false, false⟩,
     lands 0xCA ⟨false, true, true, true, true⟩, lands 0xCA ⟨true, false, false, false, false⟩,
     lands 0xD2 ⟨true, true, true, false, true⟩, lands 0xD2 ⟨false, false, false, true, false⟩,
     lands 0xDA ⟨true, true, true, false, true⟩, lands 0xDA ⟨false, false, false, true, false⟩,
     lands 0xE2 ⟨true, true, false, true, true⟩, lands 0xE2 ⟨false, false, true, false, false⟩,
     lands 0xEA ⟨true, true, false, true, true⟩, lands 0xEA ⟨false, false, true, false, false⟩,
     lands 0xF2 ⟨true, false, true, true, true⟩, lands 0xF2 ⟨false, true, false, false, false⟩,
     lands 0xFA ⟨true, false, true, true, true⟩, lands 0xFA ⟨false, true, false, false, false⟩] =
    [some 0x1235, some 0x0003, some 0x0003, some 0x1235, some 0x1235, some 0x0003, some 0x0003, some 0x1235,
     some 0x1235, some 0x0003, some 0x0003, some 0x1235, some 0x1235, some 0x0003, some 0x0003, some 0x1235] := by
  decide

/-- V-JP-10 and V-JP-11. -/
theorem test_jmp :
    sees (fun t => t.pc) ((boot [0xC3, 0x10, 0x00]).setFlags ⟨true, true, true, true, false⟩) = some 0x0011 ∧
      sees (fun t => t.pc) (boot [0xC3, 0xFF, 0xFF]) = some 0x0000 := by
  decide

/-- V-SO-4 -/
theorem test_inr_register :
    sees (fun t => (t.reg .C, flagBits t)) ((boot [0x0C]).setReg .C 0x7F) =
      some (0x80, [0, 1, 0, 0, 0]) := by
  decide
/-- V-SO-5 -/
theorem test_inr_memory :
    sees (fun t => (t.byteAt 0x30, flagBits t)) (((boot [0x34]).setReg .L 0x30).setByteAt 0x0030 0xFF) =
      some (0x00, [1, 0, 1, 0, 0]) := by
  decide
/-- V-SO-6 -/
theorem test_inr_own_opcode :
    sees (fun t => (t.byteAt 0, flagBits t, t.pc)) (boot [0x34]) =
      some (0x35, [0, 0, 1, 0, 0], 1) := by
  decide
/-- V-SO-7 -/
theorem test_dcr_wraps : sees (fun t => (t.reg .B, flagBits t)) (boot [0x05]) = some (0xFF, [0, 1, 1, 0, 0]) := by decide
/-- V-SO-9 -/
theorem test_dcr_memory :
    sees (fun t => (t.byteAt 0x30, flagBits t)) (((boot [0x35]).setReg .L 0x30).setByteAt 0x0030 0x01) =
      some (0x00, [1, 0, 1, 0, 0]) := by
  decide
/-- V-SO-15 -/
theorem test_dad_carries :
    sees (fun t => (t.pair .HL, flagBits t)) (((((boot [0x09]).setReg .H 0xFF).setReg .L 0xFF).setReg .C 0x01).setFlags ⟨true, false, false, false, false⟩) =
      some (0x0000, [1, 0, 0, 1, 0]) := by
  decide
/-- V-SO-18 -/
theorem test_dad_sp :
    sees (fun t => (t.pair .HL, flagBits t, t.sp)) (((boot [0x39]).setReg .L 0x01).setSp 0xFFFF) =
      some (0x0000, [0, 0, 0, 1, 0], 0xFFFF) := by
  decide
/-- V-SO-19 -/
theorem test_inx_wraps :
    sees (fun t => (t.reg .B, t.reg .C, flagBits t, t.runState)) (((boot [0x03]).setReg .B 0xFF).setReg .C 0xFF) =
      some (0x00, 0x00, [0, 0, 0, 0, 0], .running) := by
  decide
/-- V-SO-20 -/
theorem test_inx_carries_into_high :
    sees (fun t => (t.reg .D, t.reg .E)) (((boot [0x13]).setReg .D 0x12).setReg .E 0xFF) =
      some (0x13, 0x00) := by
  decide
/-- V-ST-1 -/
theorem test_push_from_reset :
    sees (fun t => (t.byteAt 0xFFFF, t.byteAt 0xFFFE, t.sp, t.pc)) (((boot [0xC5]).setReg .B 0x12).setReg .C 0x34) =
      some (0x12, 0x34, 0xFFFE, 1) := by
  decide
/-- V-ST-2 -/
theorem test_push_straddles :
    sees (fun t => (t.byteAt 0x0000, t.byteAt 0xFFFF, t.sp)) ((((boot [0xD5]).setReg .D 0xAB).setReg .E 0xCD).setSp 0x0001) =
      some (0xAB, 0xCD, 0xFFFF) := by
  decide
/-- V-ST-8 -/
theorem test_pop_own_bytes :
    sees (fun t => (t.reg .L, t.reg .H, t.sp, t.pc)) (boot [0xE1]) =
      some (0xE1, 0x00, 0x0002, 1) := by
  decide
/-- V-ST-3: POP D straddling the wrap, IMAGE_LEN 65536. -/
theorem test_pop_straddles :
    sees (fun t => (t.reg .E, t.reg .D, t.sp, t.pc))
      ({ (((((boot [0x12]).setPc 0x0010).setByteAt 0x0010 0xD1).setSp 0xFFFF).setByteAt 0xFFFF 0x34) with imageLen := 65536 } : State) =
      some (0x34, 0x12, 0x0001, 0x0011) := by
  decide
/-- V-ST-5, step 1 -/
theorem test_push_psw :
    sees (fun t => (t.byteAt 0x00FF, t.byteAt 0x00FE, t.sp)) ((((boot [0xF5, 0xF1]).setReg .A 0x9C).setFlags ⟨false, true, true, true, true⟩).setSp 0x0100) =
      some (0x9C, 0x97, 0x00FE) := by
  decide
/-- V-ST-7 -/
theorem test_push_psw_fixed_bits :
    sees (fun t => (t.byteAt 0x00FF, t.byteAt 0x00FE)) ((((boot [0xF5]).setReg .A 0xFF).setFlags ⟨true, true, true, true, true⟩).setSp 0x0100) =
      some (0xFF, 0xD7) := by
  decide
/-- V-ST-4 -/
theorem test_pop_psw :
    sees (fun t => (t.reg .A, flagBits t, t.sp, t.pc)) ((((boot [0xF1]).setSp 0x00FE).setByteAt 0x00FE 0xFF).setByteAt 0x00FF 0x3D) =
      some (0x3D, [1, 1, 1, 1, 1], 0x0100, 1) := by
  decide
/-- V-ST-4b -/
theorem test_pop_psw_ignored_bits :
    sees (fun t => (t.reg .A, flagBits t, t.sp)) (((((boot [0xF1]).setSp 0x00FE).setByteAt 0x00FE 0x28).setByteAt 0x00FF 0x3D).setFlags ⟨true, true, true, true, true⟩) =
      some (0x3D, [0, 0, 0, 0, 0], 0x0100) := by
  decide

/-- The state before a fatal byte in V-FL-1 to V-FL-11. -/
def beforeFault (op : Byte) : State := (bootA [op, 0x55, 0x66] 0x11 true).setSp 0x0100

/-- The step on a fatal byte leaves everything but the run state, which holds the fault. -/
def faultsWith (op : Byte) (f : Fault) : Bool :=
  sees id (beforeFault op) == some { beforeFault op with runState := .faulted f }

/-- V-FL-1 to V-FL-11, and a byte of each row they leave out (0x02, 0xC4). -/
theorem test_fatal_bytes :
    ([0x01, 0x08, 0x17, 0x3B, 0xC9, 0xCD, 0xFD, 0xE9, 0x02].all
        (fun op => faultsWith op (.unrecognizedSubOperation op 0)) &&
      [0xC0, 0xD3, 0xFF, 0xC4].all (fun op => faultsWith op (.unrecognizedOpcode op 0))) = true := by
  decide

/-- V-FL-12: FAULTED absorbs. -/
theorem test_faulted_absorbs :
    let s := (beforeFault 0x01).setRunState (.faulted (.unrecognizedSubOperation 0x01 0))
    step s = .next s := rfl

/-- V-FL-13 -/
theorem test_fatal_byte_as_operand :
    sees (fun t => (t.reg .B, t.pc, t.runState)) (boot [0x06, 0xFF]) =
      some (0xFF, 2, .running) := by
  decide
/-- V-EN-1 -/
theorem test_empty_image_ends : sees (fun t => (t)) State.reset = some (State.reset.setRunState .ended) := by decide
/-- V-EN-2 -/
theorem test_operands_past_the_image :
    sees (fun t => (t.reg .A, t.pc, t.runState)) (boot [0x3A]) =
      some (0x3A, 3, .running) := by
  decide
/-- V-EN-3, step 2 -/
theorem test_jump_out_of_the_image :
    sees (fun t => (t.runState, t.pc)) ((boot [0xC3, 0x20, 0x00]).setPc 0x0021) =
      some (.ended, 0x0021) := by
  decide

/-! ### The interface for the host's checks -/

/-- A table word decodes, and is the very first instruction a step from reset runs. -/
theorem test_table_word :
    decodeTableWord 24 0x123432 = some (.sta 0x1234) ∧ decodeTableWord 8 0xFFFFC3 = some (.jmp 0) ∧
      sees (fun t => (t.byteAt 0x1234, t.pc)) (((State.reset.withFetchWord 24 0x123432)).setReg .A 0x77) =
        some (0x77, 3) := by
  decide

/-- Construction loads the image and runs it: P5's two steps end FAULTED at pc 2. -/
theorem test_construct_and_run :
    (match State.construct [0x3E, 0x01, 0x01, 0x34, 0x12, 0x76] with
      | .next s => match run 5 s with
        | .next t => decide (t.reg .A = 0x01 ∧ t.pc = 2 ∧ t.runState = .faulted (.unrecognizedSubOperation 0x01 2))
        | .fault _ => false
        | .refused _ => false
      | .fault _ => false
      | .refused _ => false) = true := by
  decide

theorem test_reset_memory_wf : State.reset.mem.wf = true := by decide

/-! ### Witnesses: a concrete state and operands for the hypotheses of each obligation -/

theorem witness_DecodeOfEncode : (Instr.illegalS07 5).wellFormed = true ∧ (Instr.movRR .A .L).wellFormed = true := by
  decide

theorem witness_DecodedBytes : decode [0xC3, 0xFF, 0xFF, 0x00] = .instr (.jmp 0xFFFF) [0x00] := by decide

/-- At the last address of a full image, with the operand bytes wrapped. -/
theorem witness_StepRuns :
    let s : State := { (((boot [0x34, 0x12]).setByteAt 0xFFFF 0x32).setPc 0xFFFF) with imageLen := 65536 }
    s.fetches ∧ decode s.bytesAtPc = .instr (.sta 0x1234) [] :=
  ⟨⟨rfl, by decide⟩, by decide⟩

theorem witness_ReachingTheImageEnd :
    State.reset.runState = .running ∧ State.reset.imageLen ≤ State.reset.pc.toNat := ⟨rfl, by decide⟩

theorem witness_StoppedMachine :
    (State.reset.setRunState .halted).runState ≠ .running ∧ (State.reset.setRunState .ended).runState ≠ .running ∧
      (State.reset.setRunState (.faulted (.memoryOutOfBounds 65536))).runState ≠ .running := by
  decide

theorem witness_FinishedRun :
    run 1 State.reset = .next (State.reset.setRunState .ended) ∧ (State.reset.setRunState .ended).runState ≠ .running ∧
      1 ≤ 1 := ⟨rfl, by decide, le_rfl⟩

/-- A store that leaves a listed cell. -/
theorem witness_CanonicalMemory :
    let s := bootA [0x32, 0xFF, 0xFF] 0x77
    s.Inv ∧ step s = .next ((s.setByteAt 0xFFFF 0x77).setPc 3) := ⟨⟨by decide, by decide⟩, rfl⟩

theorem witness_FaultRecord :
    (beforeFault 0xFF).FaultRecord ∧
      step (beforeFault 0xFF) = .next ((beforeFault 0xFF).setRunState (.faulted (.unrecognizedOpcode 0xFF 0))) :=
  ⟨trivial, rfl⟩

theorem witness_ImageLength : step (boot [0x00]) = .next ((boot [0x00]).setPc 1) := rfl

/-- For the six statements about what any instruction writes: it runs, and something is unlisted for it. -/
theorem witness_Frames :
    let s := boot []
    exec (.inrR .B) s = .next (((s.setReg .B 1).setFlags ⟨false, false, false, false, false⟩).setPc 1) ∧
      Reg.A ∉ regsWritten (.inrR .B) ∧ FlagName.cy ∉ flagsWritten (.inrR .B) ∧
      (0xFFFF : Word) ∉ storedAt (.inrR .B) s := ⟨rfl, by decide, by decide, by decide⟩

/-- POP PSW and PUSH PSW both answer a next state, for the two clauses on auxiliary carry. -/
theorem witness_AuxiliaryCarry :
    (∃ t, exec .popPsw (boot [0xFF, 0x3D]) = .next t) ∧
      ∃ t, exec .pushPsw ((boot []).setFlags ⟨false, false, false, false, true⟩) = .next t := ⟨⟨_, rfl⟩, ⟨_, rfl⟩⟩

/-- Each of the four forms runs; the first two carry out, the last two do not. -/
theorem witness_CarryingAddition :
    (∃ t, exec (.add (.reg .A)) (bootA [] 0xFF) = .next t ∧ t.flags.cy = true) ∧
      (∃ t, exec (.adc (.reg .C)) (bootA [] 0xFF true) = .next t ∧ t.flags.cy = true) ∧
      (∃ t, exec (.adi 0x01) (bootA [] 0x7F) = .next t ∧ t.flags.cy = false) ∧
      ∃ t, exec (.aci 0x01) (bootA [] 0x7F true) = .next t ∧ t.flags.cy = false :=
  ⟨⟨_, rfl, by decide⟩, ⟨_, rfl, by decide⟩, ⟨_, rfl, by decide⟩, ⟨_, rfl, by decide⟩⟩

/-- Both clauses, through the wrap. -/
theorem witness_IncrementThenDecrement :
    (∃ t u, exec (.inrR .B) ((boot []).setReg .B 0xFF) = .next t ∧ exec (.dcrR .B) t = .next u) ∧
      ∃ t u, exec .inrM (boot [0xFF]) = .next t ∧ exec .dcrM t = .next u := ⟨⟨_, _, rfl, rfl⟩, ⟨_, _, rfl, rfl⟩⟩

/-- The stack from reset, across address 0. -/
theorem witness_PushThenPop :
    ∃ t u, exec (.pushRp .BC) (boot []) = .next t ∧ exec (.popRp .DE) t = .next u := ⟨_, _, rfl, rfl⟩

theorem witness_PushThenPopPsw :
    ∃ t u, exec .pushPsw (bootA [] 0x9C true) = .next t ∧
      exec .popPsw { t with regs := State.reset.regs, flags := State.reset.flags } = .next u := ⟨_, _, rfl, rfl⟩

/-- A byte of each of the two lists, fetched. -/
theorem witness_FetchedFatalByte :
    ((boot [0xFF]).fetches ∧ (boot [0xFF]).byteAt (boot [0xFF]).pc ∈ opcodeFaultBytes) ∧
      ((boot [0x01]).fetches ∧ (boot [0x01]).byteAt (boot [0x01]).pc ∈ subOperationFaultBytes) :=
  ⟨⟨⟨rfl, by decide⟩, by decide⟩, ⟨⟨rfl, by decide⟩, by decide⟩⟩

theorem witness_OnlyAFatalOpcodeFaults :
    let t := (boot [0x01]).setRunState (.faulted (.unrecognizedSubOperation 0x01 0))
    (boot [0x01]).runState = .running ∧ step (boot [0x01]) = .next t ∧
      t.runState = .faulted (.unrecognizedSubOperation 0x01 0) := ⟨rfl, rfl, rfl⟩

/-- The two sides of the boundary. -/
theorem witness_PortBounds : 65536 ≤ (65536 : Nat) ∧ (65535 : Nat) < 65536 := by decide

theorem witness_SetByte : (65535 : Nat) < 65536 ∧ (0 : Nat) ≠ 65535 := by decide

/-- The same cells reached by two histories, a store undone among them. -/
theorem witness_CanonicalMemories :
    let m := (Memory.ofImage [0x12, 0x34])
    let m' := ((Memory.ofImage [0x12, 0x34]).store 65535 0x55).store 65535 0
    m.wf = true ∧ m'.wf = true ∧ ∀ a : Word, m.load a.toNat = m'.load a.toNat := ⟨by decide, by decide, fun _ => rfl⟩

/-- A range that ends at the last cell. -/
theorem witness_FetchBytes : 65533 + 3 ≤ (65536 : Nat) := by decide

/-- E10: the 0x00 that STA stores is the NOP the next step runs. -/
theorem witness_StoreOntoNext :
    let s := boot [0x32, 0x03, 0x00, 0x0F]
    let t := (s.setByteAt 3 0).setPc 3
    let b := byteAfter (.sta 3) s
    s.fetches ∧ decode s.bytesAtPc = .instr (.sta 3) [] ∧ step s = .next t ∧ t.fetches ∧
      decode [b t.pc, b (t.pc + 1), b (t.pc + 2)] = .instr .nop [0, 0] :=
  ⟨⟨rfl, by decide⟩, by decide, rfl, ⟨rfl, by decide⟩, by decide⟩

/-- PUSH B onto the opcode and the operand byte of the next instruction, which is then MVI A. -/
theorem witness_StoreOntoNext_push :
    let s := (((boot [0xC5, 0x00]).setReg .B 0x2A).setReg .C 0x3E).setSp 3
    let t := (((s.setByteAt 2 0x2A).setByteAt 1 0x3E).setSp 1).setPc 1
    let b := byteAfter (.pushRp .BC) s
    s.fetches ∧ decode s.bytesAtPc = .instr (.pushRp .BC) [0, 0] ∧ step s = .next t ∧ t.fetches ∧
      decode [b t.pc, b (t.pc + 1), b (t.pc + 2)] = .instr (.mviR .A 0x2A) [0] :=
  ⟨⟨rfl, by decide⟩, by decide, rfl, ⟨rfl, by decide⟩, by decide⟩

/-- STA onto its own low operand byte, for the step-level clause. -/
theorem witness_StaOntoItself :
    let s := bootA [0x32, 0x01, 0x00] 0x77
    s.fetches ∧ s.byteAt s.pc = 0x32 ∧ wordOf (s.byteAt (s.pc + 2)) (s.byteAt (s.pc + 1)) = s.pc + 1 :=
  ⟨⟨rfl, by decide⟩, by decide, by decide⟩

/-- A full image, and one byte more. -/
theorem witness_Construct :
    (List.replicate 65536 (0x76 : Byte)).length ≤ 65536 ∧ 65536 < (List.replicate 65537 (0x76 : Byte)).length := by
  simp only [List.length_replicate]
  omega

end Sys2Proof.Tests
end

/-! PROOFS of the family 20_memory.md: the port at an offset in range, and `set_byte` followed by `fetch_byte`. -/

namespace Sys2Proof.Machine

/-! ### The port inside memory -/

theorem Memory.fetchByte_of_lt (m : Memory) {offset : Nat} (h : offset < 65536) :
    m.fetchByte offset = .ok (m.load offset) :=
  if_pos h

theorem Memory.setByte_of_lt (m : Memory) {offset : Nat} (v : Byte) (h : offset < 65536) :
    m.setByte offset v = .ok (m.store offset v) :=
  if_pos h

/-! ### A fetch after a store -/

theorem Memory.fetchByte_store_same (m : Memory) {offset : Nat} (v : Byte) (h : offset < 65536) :
    (m.store offset v).fetchByte offset = .ok v := by
  rw [Memory.fetchByte_of_lt _ h, Memory.load_store, if_pos rfl]

/-- No bound on either offset: out of range both sides are the same bounds error. -/
theorem Memory.fetchByte_store_other (m : Memory) {offset b : Nat} (v : Byte) (h : b ≠ offset) :
    (m.store offset v).fetchByte b = m.fetchByte b := by
  unfold Memory.fetchByte
  rw [Memory.load_store, if_neg h]

/-- Settles O55: the memory that `set_byte` answers is the store, on which the two fetches are known; a 16-bit address is
always in range, so `MemWrite` goes on with that same store. -/
theorem setByteChangesOneCell : Obligations.SetByteChangesOneCell := by
  unfold Obligations.SetByteChangesOneCell
  constructor
  · intro m offset v h
    exact ⟨m.store offset v, m.setByte_of_lt v h, m.fetchByte_store_same v h, fun _ => m.fetchByte_store_other v⟩
  · intro a v s k
    exact ⟨s.mem.store a.toNat v, s.mem.setByte_word a v, memWrite_eq a v s k⟩

end Sys2Proof.Machine

/-! PROOFS of the family 42_control.md: NOP, and the fatal bytes of its (cls, snd) group. -/

namespace Sys2Proof.Machine

/-! ### The (0, 0) group of the opcode map -/

/-- The `(cls, snd)` = (0, 0) bytes other than NOP decode to the fatal row of their group (30_encoding.md R98). -/
theorem decodeWith_zeroZero {op : Byte} (b1 b2 : Byte) (hc : classify op = some .single) (hcls : cls op = 0)
    (hsnd : snd op = 0) : decodeWith op b1 b2 = .illegalS00 (fst op) := by
  simp [decodeWith, decodeSingle, hc, hcls, hsnd]

/-- The seven siblings of NOP go to the single-operand family, with both fields 0. -/
theorem nopSibling_fields : ∀ op ∈ ([0x08, 0x10, 0x18, 0x20, 0x28, 0x30, 0x38] : List Byte),
    classify op = some .single ∧ cls op = 0 ∧ snd op = 0 := by
  decide

/-- Settles O22: NOP's state after is `exec_eq`'s, and each of the seven bytes decodes to the fatal row of its group, which
raises its fault. -/
theorem nopAdvancesPcOnly : Obligations.NopAdvancesPcOnly := by
  unfold Obligations.NopAdvancesPcOnly
  refine ⟨rfl, exec_eq .nop, fun op hop s => ?_⟩
  obtain ⟨hfamily, hcls, hsnd⟩ := nopSibling_fields op hop
  rw [decodeWith_zeroZero 0 0 hfamily hcls hsnd]
  exact ⟨after (.illegalS00 (fst op)) s, _, exec_eq _ s, rfl⟩

end Sys2Proof.Machine

/-! PROOFS of the family 43_transfer.md: what a chain of updates leaves alone, then LDAX, LDA, STA and XCHG. -/

namespace Sys2Proof.Machine

/-! ### The frame of a chain of updates: each one keeps it when what it writes is listed -/

theorem Leaves.refl (regs : List Reg) (stores : List Word) (s : State) : Leaves regs stores s s :=
  ⟨fun _ _ => rfl, fun _ _ => rfl, rfl, rfl⟩

theorem Leaves.setPc {regs : List Reg} {stores : List Word} {s t : State} (h : Leaves regs stores s t) (v : Word) :
    Leaves regs stores s (t.setPc v) :=
  h

theorem Leaves.setReg {regs : List Reg} {stores : List Word} {s t : State} (h : Leaves regs stores s t) {r : Reg}
    (v : Byte) (hr : r ∈ regs) : Leaves regs stores s (t.setReg r v) := by
  obtain ⟨hregs, hmem, hrun, hlen⟩ := h
  refine ⟨fun q hq => ?_, hmem, hrun, hlen⟩
  rw [State.reg_setReg_other t v (ne_of_mem_of_not_mem hr hq).symm]
  exact hregs q hq

theorem Leaves.setPair {regs : List Reg} {stores : List Word} {s t : State} (h : Leaves regs stores s t) {p : RegPair}
    (v : Word) (hhi : hiReg p ∈ regs) (hlo : loReg p ∈ regs) : Leaves regs stores s (t.setPair p v) :=
  (h.setReg (hiByte v) hhi).setReg (loByte v) hlo

theorem Leaves.setByteAt {regs : List Reg} {stores : List Word} {s t : State} (h : Leaves regs stores s t) {a : Word}
    (v : Byte) (ha : a ∈ stores) : Leaves regs stores s (t.setByteAt a v) := by
  obtain ⟨hregs, hmem, hrun, hlen⟩ := h
  refine ⟨hregs, fun b hb => ?_, hrun, hlen⟩
  rw [State.byteAt_setByteAt_other t v (ne_of_mem_of_not_mem ha hb).symm]
  exact hmem b hb

/-! ### The accumulator loads -/

/-- The one body of LDAX and LDA, with its frame. -/
theorem loadA_loadsOnlyA (a len : Word) (s : State) :
    ∃ t, loadA a len s = .next t ∧ t.reg .A = s.byteAt a ∧ t.pc = s.pc + len ∧ t.sp = s.sp ∧ t.flags = s.flags ∧
      Leaves [.A] [] s t :=
  ⟨_, loadA_eq a len s, State.reg_setReg_same s .A _, rfl, rfl, rfl,
    ((Leaves.refl [.A] [] s).setReg _ (by simp)).setPc _⟩

/-- Settles O25: both bytes run the accumulator load, 0x0A at DE and 0x1A at BC. -/
theorem ldaxLoadsThroughThePair : Obligations.LdaxLoadsThroughThePair := by
  unfold Obligations.LdaxLoadsThroughThePair
  exact ⟨rfl, rfl, fun s => ⟨loadA_loadsOnlyA (s.pair .DE) 1 s, loadA_loadsOnlyA (s.pair .BC) 1 s⟩⟩

/-- Settles O26: LDA runs the accumulator load at its operand. -/
theorem ldaLoadsTheAccumulator : Obligations.LdaLoadsTheAccumulator := by
  unfold Obligations.LdaLoadsTheAccumulator
  exact fun a16 s => ⟨rfl, loadA_loadsOnlyA a16 3 s⟩

/-! ### The accumulator store -/

theorem exec_sta_storesOnlyThere (a16 : Word) (s : State) :
    ∃ t, exec (.sta a16) s = .next t ∧ t.byteAt a16 = s.reg .A ∧ t.pc = s.pc + 3 ∧ t.sp = s.sp ∧
      t.flags = s.flags ∧ Leaves [] [a16] s t :=
  ⟨_, exec_eq (.sta a16) s, State.byteAt_setByteAt_same s a16 _, rfl, rfl, rfl,
    ((Leaves.refl [] [a16] s).setByteAt _ (by simp)).setPc _⟩

theorem decodeWith_sta (b1 b2 : Byte) : decodeWith 0x32 b1 b2 = .sta (wordOf b2 b1) := rfl

/-- Settles O27: a step on 0x32 runs STA at the address its operand bytes hold before the step, so its clause is the
instruction's own at that address, an operand byte's among them. -/
theorem staStoresTheAccumulator : Obligations.StaStoresTheAccumulator := by
  unfold Obligations.StaStoresTheAccumulator
  refine ⟨fun a16 s => ⟨rfl, exec_sta_storesOnlyThere a16 s⟩, fun s hfetch hop => ?_⟩
  rw [step_of_fetches hfetch, hop, decodeWith_sta]
  exact exec_sta_storesOnlyThere _ s

/-! ### XCHG -/

theorem leaves_after_xchg (s : State) : Leaves [.D, .E, .H, .L] [] s (after .xchg s) :=
  (((Leaves.refl _ _ s).setPair _ (by decide) (by decide)).setPair _ (by decide) (by decide)).setPc _

/-- What the four cells of the two pairs hold after the exchange: the first pair written keeps its bytes, since the second
names other cells. -/
theorem reg_after_xchg (s : State) :
    (after .xchg s).reg .D = s.reg .H ∧ (after .xchg s).reg .E = s.reg .L ∧
      (after .xchg s).reg .H = s.reg .D ∧ (after .xchg s).reg .L = s.reg .E := by
  simp [after, State.reg_setPair, State.pair, hiReg, loReg]

/-- Settles O28: the four registers are `reg_after_xchg`'s, and all that is written is those four and pc. -/
theorem xchgSwapsThePairs : Obligations.XchgSwapsThePairs := by
  unfold Obligations.XchgSwapsThePairs
  refine ⟨rfl, fun s => ?_⟩
  obtain ⟨hD, hE, hH, hL⟩ := reg_after_xchg s
  exact ⟨after .xchg s, exec_eq .xchg s, hD, hE, hH, hL, rfl, rfl, rfl, leaves_after_xchg s⟩

end Sys2Proof.Machine

/-! PROOFS of the family 44_jump.md: JMP, and the eight conditional jumps. -/

namespace Sys2Proof.Machine

/-- Settles O31: `exec_eq`'s state for JMP mentions no flag. -/
theorem jmpLandsOnePastItsTarget : Obligations.JmpLandsOnePastItsTarget := by
  unfold Obligations.JmpLandsOnePastItsTarget
  exact fun a16 s => ⟨rfl, exec_eq (.jmp a16) s⟩

/-- The body of the four jumps taken when their flag is clear (R203, R205, R207, R209); for the other four it is `jump_eq`. -/
theorem jump_not_eq (flag : Bool) (a16 : Word) (s : State) :
    jump (!flag) a16 s = .next (s.setPc (if flag = false then a16 + 1 else s.pc + 3)) := by
  simp only [jump_eq, Bool.not_eq_true']

/-- Settles O32: each jump runs the family's one body on its flag, or on the negation of its flag. -/
theorem conditionalJumpsFollowTheirFlag : Obligations.ConditionalJumpsFollowTheirFlag := by
  unfold Obligations.ConditionalJumpsFollowTheirFlag
  exact fun a16 s => ⟨rfl,
    jump_not_eq s.flags.z a16 s, jump_eq s.flags.z a16 s,
    jump_not_eq s.flags.cy a16 s, jump_eq s.flags.cy a16 s,
    jump_not_eq s.flags.p a16 s, jump_eq s.flags.p a16 s,
    jump_not_eq s.flags.s a16 s, jump_eq s.flags.s a16 s⟩

end Sys2Proof.Machine

/-! PROOFS of the family 45_single_operand.md: what INR and DCR leave in the place they update. -/

namespace Sys2Proof.Machine

/-! ### The place an update writes -/

/-- For the cell at HL, the store leaves HL itself alone, so the same cell is read back. -/
theorem valueOf_put_same (o : Operand) (v : Byte) (s : State) : valueOf o (s.put o v) = v := by
  cases o with
  | reg r => exact State.reg_setReg_same s r v
  | mem => exact State.byteAt_setByteAt_same s (s.pair .HL) v

theorem valueOf_setFlags (o : Operand) (g : Flags) (s : State) : valueOf o (s.setFlags g) = valueOf o s := by
  cases o <;> rfl

theorem valueOf_setPc (o : Operand) (v : Word) (s : State) : valueOf o (s.setPc v) = valueOf o s := by
  cases o <;> rfl

theorem valueOf_updated (f : Byte → Byte) (o : Operand) (s : State) :
    valueOf o (after.updated f o s) = f (valueOf o s) := by
  rw [after.updated, valueOf_setPc, valueOf_setFlags, valueOf_put_same]

theorem updated_cy (f : Byte → Byte) (o : Operand) (s : State) : (after.updated f o s).flags.cy = s.flags.cy :=
  setSzp_cy _ _

/-! ### Increment, then decrement -/

theorem decrement_increment (v : Byte) : decrement (increment v) = v :=
  BitVec.add_sub_cancel v 1

/-- R224 for any place: its byte is back after the two updates, and each of them leaves carry as it was. -/
theorem increment_then_decrement (o : Operand) (s : State) :
    let t := after.updated increment o s
    let u := after.updated decrement o t
    valueOf o u = valueOf o s ∧ t.flags.cy = s.flags.cy ∧ u.flags.cy = s.flags.cy := by
  refine ⟨?_, updated_cy _ _ _, (updated_cy _ _ _).trans (updated_cy _ _ _)⟩
  rw [valueOf_updated, valueOf_updated, decrement_increment]

/-- Settles O40: INR and DCR are the two updates of one place; for the cell at HL, neither moves HL, so the cell of the state
before is the one read at the end. -/
theorem incrementThenDecrementRestores : Obligations.IncrementThenDecrementRestores := by
  unfold Obligations.IncrementThenDecrementRestores
  intro s t u
  constructor
  · intro d hinr hdcr
    obtain rfl := exec_next_iff.mp hinr
    obtain rfl := exec_next_iff.mp hdcr
    exact increment_then_decrement (.reg d) s
  · intro hinr hdcr
    obtain rfl := exec_next_iff.mp hinr
    obtain rfl := exec_next_iff.mp hdcr
    exact increment_then_decrement .mem s

end Sys2Proof.Machine

/-! PROOFS of the family 60_exceptions.md: what raising a fault does to the state. -/

namespace Sys2Proof.Machine

/-- Settles O50: raising is one update of the state, `State.setRunState`, and that update writes the run state only. -/
theorem raisingSetsTheRunStateOnly : Obligations.RaisingSetsTheRunStateOnly := by
  unfold Obligations.RaisingSetsTheRunStateOnly
  intro f s
  rw [raise_eq, State.setRunState]

end Sys2Proof.Machine

/-! PROOFS: what the decoder reads from an encoding, and what the encoder writes for a decoded byte list. -/

namespace Sys2Proof

/-! ### The encoding of what a byte decodes to -/

/-- The opcodes with one operand byte: MVI and the immediate ALU forms (30_encoding.md R82, R85). -/
def immediateOpcodes : List Byte :=
  [0x06, 0x0E, 0x16, 0x1E, 0x26, 0x2E, 0x36, 0x3E, 0xC6, 0xCE, 0xD6, 0xDE, 0xE6, 0xEE, 0xF6, 0xFE]

/-- The opcodes with a 16-bit address (30_encoding.md R83, R85). -/
def addressOpcodes : List Byte := 0x32 :: 0x3A :: jumpOpcodes

theorem mem_immediateOpcodes : ∀ op : Byte, operandCount op = 1 → op ∈ immediateOpcodes := by
  decide +kernel

theorem mem_addressOpcodes : ∀ op : Byte, operandCount op = 2 → op ∈ addressOpcodes := by
  decide +kernel

/-- `i` is a well-formed instruction whose bytes are `bs`. -/
def Encodes (i : Instr) (bs : List Byte) : Prop := i.wellFormed = true ∧ encode i = bs

theorem encodes_noOperand : ∀ op : Byte, operandCount op = 0 → Encodes (decodeWith op 0 0) [op] := by
  unfold Encodes
  decide +kernel

theorem encodes_oneOperand {op : Byte} (b1 : Byte) (h : operandCount op = 1) :
    Encodes (decodeWith op b1 0) [op, b1] := by
  have hop := mem_immediateOpcodes op h
  fin_cases hop <;> exact ⟨rfl, rfl⟩

theorem encodes_twoOperands {op : Byte} (b1 b2 : Byte) (h : operandCount op = 2) :
    Encodes (decodeWith op b1 b2) [op, b1, b2] := by
  have hform : addrForm op (wordOf b2 b1) = [op, b1, b2] := by simp [addrForm]
  rw [← hform]
  have hop := mem_addressOpcodes op h
  fin_cases hop <;> exact ⟨rfl, rfl⟩

/-- An opcode byte decodes to a well-formed instruction whose bytes are that byte and the operand bytes it has. -/
theorem encodes_decodeWith (op b1 b2 : Byte) :
    Encodes (decodeWith op b1 b2) (op :: [b1, b2].take (operandCount op)) := by
  have hle := operandCount_le_two op
  obtain hn | hn | hn : operandCount op = 0 ∨ operandCount op = 1 ∨ operandCount op = 2 := by omega
  · rw [hn, decodeWith_noOperand b1 b2 hn]
    exact encodes_noOperand op hn
  · rw [hn, decodeWith_oneOperand b1 b2 hn]
    exact encodes_oneOperand b1 hn
  · rw [hn]
    exact encodes_twoOperands b1 b2 hn

/-! ### The two directions of the round trip -/

/-- What a byte list that decodes is made of, by the number of operand bytes. -/
theorem decode_cases {bs rest : List Byte} {i : Instr} (h : decode bs = .instr i rest) :
    (∃ op, operandCount op = 0 ∧ bs = op :: rest ∧ i = decodeWith op 0 0) ∨
    (∃ op b1, operandCount op = 1 ∧ bs = op :: b1 :: rest ∧ i = decodeWith op b1 0) ∨
    (∃ op b1 b2, operandCount op = 2 ∧ bs = op :: b1 :: b2 :: rest ∧ i = decodeWith op b1 b2) := by
  unfold decode at h
  split at h
  · cases h
  next op tail =>
    split at h
    next hn => cases h; exact .inl ⟨op, hn, rfl, rfl⟩
    next b1 tail' hn => cases h; exact .inr (.inl ⟨op, b1, hn, rfl, rfl⟩)
    next n b1 b2 tail' hn =>
      cases h
      exact .inr (.inr ⟨op, b1, b2, by have := operandCount_le_two op; omega, rfl, rfl⟩)
    next => cases h

/-- Settles O2: whatever the number of operand bytes, the bytes read are those of the instruction they decode to. -/
theorem decodedBytesAreTheEncoding : Obligations.DecodedBytesAreTheEncoding := by
  unfold Obligations.DecodedBytesAreTheEncoding
  intro bs i rest h
  obtain ⟨op, hn, rfl, rfl⟩ | ⟨op, b1, hn, rfl, rfl⟩ | ⟨op, b1, b2, hn, rfl, rfl⟩ := decode_cases h
  · obtain ⟨hwf, henc⟩ := encodes_noOperand op hn
    exact ⟨hwf, by rw [henc]; rfl⟩
  · obtain ⟨hwf, henc⟩ := encodes_oneOperand b1 hn
    exact ⟨hwf, by rw [henc]; rfl⟩
  · obtain ⟨hwf, henc⟩ := encodes_twoOperands b1 b2 hn
    exact ⟨hwf, by rw [henc]; rfl⟩

theorem decode_opcodeForm {op : Byte} {i : Instr} (rest : List Byte)
    (h : operandCount op = 0 ∧ decodeWith op 0 0 = i) : decode ([op] ++ rest) = .instr i rest := by
  obtain ⟨hn, rfl⟩ := h
  exact decode_noOperand rest hn

theorem decode_immediateForm {op : Byte} {form : Byte → Instr} (d8 : Byte) (rest : List Byte)
    (hn : operandCount op = 1) (h : decodeWith op d8 0 = form d8) :
    decode ([op, d8] ++ rest) = .instr (form d8) rest := by
  rw [← h]
  exact decode_oneOperand d8 rest hn

/-- The address is put together again from the two bytes it was written as. -/
theorem decode_addressForm {op : Byte} {form : Word → Instr} (a16 : Word) (rest : List Byte)
    (hn : operandCount op = 2)
    (h : decodeWith op (loByte a16) (hiByte a16) = form (wordOf (hiByte a16) (loByte a16))) :
    decode (addrForm op a16 ++ rest) = .instr (form a16) rest := by
  rw [Machine.wordOf_hiByte_loByte] at h
  rw [← h]
  exact decode_twoOperands _ _ rest hn

/-- Settles O1: the instruction's form says how many operand bytes follow, and its opcode byte, at each value of the selectors
in it, decodes to the same form; a fatal row is held to the bytes that are its own by well-formedness. -/
theorem decodeOfEncodeGivesInstruction : Obligations.DecodeOfEncodeGivesInstruction := by
  unfold Obligations.DecodeOfEncodeGivesInstruction
  intro i rest hwf
  cases i with
  | nop | stc | cmc | hlt | ldaxB | ldaxD | xchg | inrM | dcrM | rlc | rrc | pushPsw | popPsw =>
    exact decode_opcodeForm rest (by decide)
  | sta a | lda a | jmp a | jnz a | jz a | jnc a | jc a | jpo a | jpe a | jp a | jm a =>
    exact decode_addressForm a rest rfl rfl
  | mviM d8 | adi d8 | aci d8 | sui d8 | sbi d8 | ani d8 | xri d8 | ori d8 | cpi d8 =>
    exact decode_immediateForm d8 rest rfl rfl
  | mviR d d8 => cases d <;> exact decode_immediateForm d8 rest rfl rfl
  | inrR d | dcrR d | movRM d => exact decode_opcodeForm rest (by cases d <;> decide)
  | movMR r => exact decode_opcodeForm rest (by cases r <;> decide)
  | movRR d r => exact decode_opcodeForm rest (by cases d <;> cases r <;> decide)
  | dad y | inx y =>
    cases y with
    | pair p => exact decode_opcodeForm rest (by cases p <;> decide)
    | sp => exact decode_opcodeForm rest (by decide)
  | pushRp p | popRp p => exact decode_opcodeForm rest (by cases p <;> decide)
  | add o | adc o | sub o | sbb o | ana o | xra o | ora o | cmp o =>
    cases o with
    | reg r => exact decode_opcodeForm rest (by cases r <;> decide)
    | mem => exact decode_opcodeForm rest (by decide)
  | illegalS07 f | illegalS00 f | illegalS02 f | illegalU33 f =>
    exact decode_opcodeForm rest (by revert f; decide)
  | illegalS01 p | illegalS03 p | illegalS35 p | illegalS31 p =>
    exact decode_opcodeForm rest (by clear hwf; revert p; decide)
  | illegalU30 f | illegalU34 f | illegalU37 f =>
    exact decode_opcodeForm rest (by clear hwf; revert f; decide)

end Sys2Proof

/-! PROOFS: what every instruction writes and leaves, from the state `after` that `exec_eq` gives it. -/

namespace Sys2Proof.Machine

/-! ### Memory: the stores of an instruction, made one after the other -/

/-- Memory after the stores of a list, the first one first. -/
def Memory.storeAll (m : Memory) (stores : List (Word × Byte)) : Memory :=
  stores.foldl (fun m' st => m'.store st.1.toNat st.2) m

theorem lookup_eq_none_of_notMem {stores : List (Word × Byte)} {a : Word} (h : a ∉ stores.map (·.1)) :
    stores.lookup a = none := by
  rw [List.lookup_eq_none_iff]
  intro st hst
  exact bne_iff_ne.mpr fun e => h (List.mem_map.mpr ⟨st, hst, e.symm⟩)

/-- When no address is stored to twice, a cell holds what the list stores there. -/
theorem Memory.load_storeAll {stores : List (Word × Byte)} (m : Memory) (a : Word)
    (h : (stores.map (·.1)).Nodup) :
    (m.storeAll stores).load a.toNat = (stores.lookup a).getD (m.load a.toNat) := by
  induction stores generalizing m with
  | nil => rfl
  | cons st rest ih =>
    obtain ⟨b, v⟩ := st
    obtain ⟨hb, hrest⟩ := List.nodup_cons.mp h
    have hstep : (m.storeAll ((b, v) :: rest)).load a.toNat =
        (rest.lookup a).getD ((m.store b.toNat v).load a.toNat) := ih (m.store b.toNat v) hrest
    rw [hstep, Memory.load_store]
    by_cases hab : a = b
    · subst hab
      simp [lookup_eq_none_of_notMem hb]
    · rw [if_neg fun e => hab (BitVec.eq_of_toNat_eq e), List.lookup_cons, beq_false_of_ne hab]

theorem Memory.storeAll_wf {m : Memory} (stores : List (Word × Byte)) (w : m.wf = true) :
    (m.storeAll stores).wf = true := by
  induction stores generalizing m with
  | nil => exact w
  | cons st rest ih => exact ih (Memory.store_wf _ _ (word_lt_memSize st.1) w)

theorem mem_after (i : Instr) (s : State) : (after i s).mem = s.mem.storeAll (storedBytes i s) := by
  cases i with
  | inx y => cases y <;> rfl
  | _ => rfl

/-- The two cells of a push are distinct, also where they wrap. -/
theorem sub_one_ne_sub_two (sp : Word) : sp - 1 ≠ sp - 2 := by
  bv_omega

theorem storedAt_nodup (i : Instr) (s : State) : (storedAt i s).Nodup := by
  cases i with
  | pushPsw | pushRp p =>
    exact List.nodup_cons.mpr ⟨fun h => sub_one_ne_sub_two s.sp (List.mem_singleton.mp h), List.nodup_singleton _⟩
  | movMR r | mviM d8 | inrM | dcrM | sta a => exact List.nodup_singleton _
  | _ => exact List.nodup_nil

theorem byteAt_after (i : Instr) (s : State) (a : Word) : (after i s).byteAt a = byteAfter i s a := by
  rw [State.byteAt, mem_after]
  exact Memory.load_storeAll s.mem a (storedAt_nodup i s)

theorem byteAfter_of_notMem {i : Instr} {s : State} {a : Word} (h : a ∉ storedAt i s) :
    byteAfter i s a = s.byteAt a := by
  rw [byteAfter, lookup_eq_none_of_notMem h]
  rfl

theorem byteAt_after_of_notMem {i : Instr} {s : State} {a : Word} (h : a ∉ storedAt i s) :
    (after i s).byteAt a = s.byteAt a :=
  (byteAt_after i s a).trans (byteAfter_of_notMem h)

/-- Settles O19: the byte after is the one stored there, if one is. -/
theorem memoryChangesOnlyAtStoredAddresses : Obligations.MemoryChangesOnlyAtStoredAddresses := by
  unfold Obligations.MemoryChangesOnlyAtStoredAddresses
  intro i s t h a ha
  obtain rfl := exec_next_iff.mp h
  exact byteAt_after_of_notMem ha

/-! ### Registers -/

theorem reg_after_of_notMem {i : Instr} {r : Reg} (s : State) (h : r ∉ regsWritten i) :
    (after i s).reg r = s.reg r := by
  cases i with
  | ldaxB | ldaxD | lda a | rlc | rrc | popPsw => exact State.reg_setReg_other _ _ (List.ne_of_not_mem_cons h)
  | adi v | aci v | sui v | sbi v | ani v | xri v | ori v =>
    exact State.reg_setReg_other _ _ (List.ne_of_not_mem_cons h)
  | add o | adc o | sub o | sbb o | ana o | xra o | ora o =>
    exact State.reg_setReg_other _ _ (List.ne_of_not_mem_cons h)
  | inrR d | dcrR d | mviR d v | movRM d | movRR d q => exact State.reg_setReg_other _ _ (List.ne_of_not_mem_cons h)
  | xchg => exact (leaves_after_xchg s).1 r h
  | dad y => exact ((Leaves.refl [.H, .L] [] _).setPair (p := .HL) _ (by decide) (by decide)).1 r h
  | inx y =>
    cases y with
    | pair p => exact ((Leaves.refl (pairRegs p) [] s).setPair _ (by simp [pairRegs]) (by simp [pairRegs])).1 r h
    | sp => rfl
  | popRp p => exact ((Leaves.refl (pairRegs p) [] s).setPair _ (by simp [pairRegs]) (by simp [pairRegs])).1 r h
  | _ => rfl

/-- Settles O15: the registers `after` writes are those of the table. -/
theorem registersChangeOnlyWhereListed : Obligations.RegistersChangeOnlyWhereListed := by
  unfold Obligations.RegistersChangeOnlyWhereListed
  intro i s t h r hr
  obtain rfl := exec_next_iff.mp h
  exact reg_after_of_notMem s hr

/-! ### Flags -/

theorem get_setAll_of_notMem {f : FlagName} (r : Word) (g : Flags) (h : f ∉ [FlagName.z, .s, .p, .cy]) :
    (setAll r g).get f = g.get f := by
  cases f with
  | ac => rfl
  | _ => simp at h

theorem get_setSzp_of_notMem {f : FlagName} (r : Word) (g : Flags) (h : f ∉ [FlagName.z, .s, .p]) :
    (setSzp r g).get f = g.get f := by
  cases f with
  | cy | ac => rfl
  | _ => simp at h

theorem get_setCarry_of_notMem {f : FlagName} (s : State) (b : Bool) (h : f ∉ [FlagName.cy]) :
    (s.setCarry b).flags.get f = s.flags.get f := by
  cases f with
  | cy => simp at h
  | _ => rfl

theorem getFlag_after_of_notMem {i : Instr} {f : FlagName} (s : State) (h : f ∉ flagsWritten i) :
    (after i s).flags.get f = s.flags.get f := by
  cases i with
  | adi v | aci v | sui v | sbi v | ani v | xri v | ori v | cpi v => exact get_setAll_of_notMem _ _ h
  | add o | adc o | sub o | sbb o | ana o | xra o | ora o | cmp o => exact get_setAll_of_notMem _ _ h
  | inrM | inrR d | dcrM | dcrR d => exact get_setSzp_of_notMem _ _ h
  | stc | cmc | rlc | rrc | dad y => exact get_setCarry_of_notMem s _ h
  | popPsw => cases f <;> simp [flagsWritten] at h
  | inx y => cases y <;> rfl
  | _ => rfl

/-- Settles O16: the flags `after` writes are those of the table. -/
theorem flagsChangeOnlyWhereListed : Obligations.FlagsChangeOnlyWhereListed := by
  unfold Obligations.FlagsChangeOnlyWhereListed
  intro i s t h f hf
  obtain rfl := exec_next_iff.mp h
  exact getFlag_after_of_notMem s hf

theorem ac_mem_flagsWritten (i : Instr) : FlagName.ac ∈ flagsWritten i ↔ i = .popPsw := by
  cases i <;> simp [flagsWritten]

/-- The status byte a push wrote is at the new stack pointer. -/
theorem byteAt_sp_after_pushPsw (s : State) :
    (after .pushPsw s).byteAt (after .pushPsw s).sp = statusByte s.flags :=
  State.byteAt_setByteAt_same _ _ _

/-- Settles O17: POP PSW alone lists the flag as written, and takes it from bit 4 of the byte at sp; PUSH PSW stores the status
byte at the new sp, and bit 4 of that is the flag. -/
theorem auxiliaryCarryMovesOnlyThroughTheStack : Obligations.AuxiliaryCarryMovesOnlyThroughTheStack := by
  unfold Obligations.AuxiliaryCarryMovesOnlyThroughTheStack
  intro i s t h
  obtain rfl := exec_next_iff.mp h
  constructor
  · split
    next hi => rw [hi]; rfl
    next hi => exact getFlag_after_of_notMem (f := .ac) s (mt (ac_mem_flagsWritten i).mp hi)
  · rintro rfl
    rw [byteAt_sp_after_pushPsw, statusByte_ac]

/-! ### Stack pointer, program counter, run state, image length -/

theorem sp_after (i : Instr) (s : State) : (after i s).sp = spAfter i s.sp := by
  cases i with
  | inx y => cases y <;> rfl
  | _ => rfl

/-- Settles O18: the stack forms are the ones whose state after sets sp. -/
theorem stackPointerMovesOnlyByStackForms : Obligations.StackPointerMovesOnlyByStackForms := by
  unfold Obligations.StackPointerMovesOnlyByStackForms
  intro i s t h
  obtain rfl := exec_next_iff.mp h
  exact sp_after i s

theorem pc_after (i : Instr) (s : State) : (after i s).pc = pcAfter i s := by
  cases i with
  | jnz a | jz a => cases hf : s.flags.z <;> simp [after, pcAfter, takenTarget, fatal, Instr.length, hf]
  | jnc a | jc a => cases hf : s.flags.cy <;> simp [after, pcAfter, takenTarget, fatal, Instr.length, hf]
  | jpo a | jpe a => cases hf : s.flags.p <;> simp [after, pcAfter, takenTarget, fatal, Instr.length, hf]
  | jp a | jm a => cases hf : s.flags.s <;> simp [after, pcAfter, takenTarget, fatal, Instr.length, hf]
  | inx y => cases y <;> rfl
  | _ => rfl

/-- Settles O20: the pc `after` sets is the table's, for a conditional jump at either value of its flag. -/
theorem programCounterAfterEveryInstruction : Obligations.ProgramCounterAfterEveryInstruction := by
  unfold Obligations.ProgramCounterAfterEveryInstruction
  intro i s t h
  obtain rfl := exec_next_iff.mp h
  exact pc_after i s

theorem runState_after (i : Instr) (s : State) : (after i s).runState = runStateAfter i s := by
  cases i with
  | inx y => cases y <;> rfl
  | _ => rfl

/-- Settles O21: only HLT and the fatal rows have a state after that sets the run state. -/
theorem runStateAfterEveryInstruction : Obligations.RunStateAfterEveryInstruction := by
  unfold Obligations.RunStateAfterEveryInstruction
  intro i s t h
  obtain rfl := exec_next_iff.mp h
  exact runState_after i s

theorem imageLen_after (i : Instr) (s : State) : (after i s).imageLen = s.imageLen := by
  cases i with
  | inx y => cases y <;> rfl
  | _ => rfl

/-! ### The frame of an instruction that lets the machine run on -/

/-- The tables of what an instruction writes, as one frame: only HLT and the fatal rows touch the run state as well. -/
theorem leaves_after (i : Instr) (s : State) (hhlt : i ≠ .hlt := by nofun) (hfatal : fatal i = false := by rfl) :
    Leaves (regsWritten i) (storedAt i s) s (after i s) :=
  ⟨fun _ => reg_after_of_notMem s, fun _ => byteAt_after_of_notMem,
    by rw [runState_after, runStateAfter, if_neg hhlt, hfatal]; rfl, imageLen_after i s⟩

/-- A fatal row's whole effect is its fault (60_exceptions.md R255). -/
theorem after_of_fatal {i : Instr} (s : State) (h : fatal i = true) :
    after i s = s.setRunState (.faulted (faultOf i s.pc)) := by
  cases i with
  | illegalS07 f | illegalS00 f | illegalS02 f | illegalU30 f | illegalU34 f | illegalU37 f | illegalU33 f => rfl
  | illegalS01 p | illegalS03 p | illegalS35 p | illegalS31 p => rfl
  | _ => cases h

end Sys2Proof.Machine

/-! PROOFS: the cycle and its invariants, and which bytes fault, from the three cases of a step. -/

namespace Sys2Proof.Machine

/-! ### The next state of a step -/

/-- The instruction the bytes at pc stand for (40_decoder_sequencer.md R116). -/
def State.fetched (s : State) : Instr :=
  decodeWith (s.byteAt s.pc) (s.byteAt (s.pc + 1)) (s.byteAt (s.pc + 2))

theorem step_eq_after {s : State} (h : s.fetches) : step s = .next (after s.fetched s) :=
  (step_of_fetches h).trans (exec_eq _ s)

theorem fetched_of_decode {s : State} {i : Instr} {rest : List Byte} (h : decode s.bytesAtPc = .instr i rest) :
    s.fetched = i := by
  obtain ⟨rest', hdec⟩ := decode_three (s.byteAt s.pc) (s.byteAt (s.pc + 1)) (s.byteAt (s.pc + 2))
  exact (Decoded.instr.inj (hdec.symm.trans h)).1

/-- What a step answers is one of three states, by what the machine does: it runs, reaches the image's end, or has stopped. -/
theorem step_next_cases {s t : State} (h : step s = .next t) :
    (s.fetches ∧ t = after s.fetched s) ∨ t = s.setRunState .ended ∨ (s.runState ≠ .running ∧ t = s) := by
  obtain ⟨hf, -⟩ | ⟨-, -, he⟩ | ⟨hr, he⟩ := step_cases s
  · exact .inl ⟨hf, exec_next_iff.mp ((step_of_fetches hf).symm.trans h)⟩
  · exact .inr (.inl (Host.Outcome.next.inj (h.symm.trans he)))
  · exact .inr (.inr ⟨hr, Host.Outcome.next.inj (h.symm.trans he)⟩)

/-- Settles O9: each of the three cases answers a next state. -/
theorem everyStepAnswersANextState : Obligations.EveryStepAnswersANextState := by
  unfold Obligations.EveryStepAnswersANextState
  intro s
  obtain ⟨hf, -⟩ | ⟨-, -, he⟩ | ⟨-, he⟩ := step_cases s
  · exact ⟨_, step_eq_after hf⟩
  · exact ⟨_, he⟩
  · exact ⟨_, he⟩

/-- Settles O6: the instruction decoded from the three bytes at pc is the one fetched. -/
theorem stepRunsTheDecodedInstruction : Obligations.StepRunsTheDecodedInstruction := by
  unfold Obligations.StepRunsTheDecodedInstruction
  intro s i rest hf hdec
  rw [← fetched_of_decode hdec]
  exact step_of_fetches hf

/-- Settles O7: `step_of_imageEnd`'s state is the given one with the run state replaced. -/
theorem reachingTheImageEndEndsTheRun : Obligations.ReachingTheImageEndEndsTheRun := by
  unfold Obligations.ReachingTheImageEndEndsTheRun
  exact fun s hr hend => step_of_imageEnd hr hend

/-- Settles O58: the bytes at the new pc are `byteAfter`'s, so the instruction decoded from those is the next one fetched. -/
theorem storeOntoTheNextInstructionIsFetched : Obligations.StoreOntoTheNextInstructionIsFetched := by
  unfold Obligations.StoreOntoTheNextInstructionIsFetched
  intro s t i j rest rest' hs hi hst ht hj
  have hexec : exec i s = .next t := (stepRunsTheDecodedInstruction s i rest hs hi).symm.trans hst
  obtain rfl := exec_next_iff.mp hexec
  refine stepRunsTheDecodedInstruction _ j rest' ht ?_
  rw [State.bytesAtPc, byteAt_after, byteAt_after, byteAt_after]
  exact hj

/-! ### A stopped machine, and the end of a run -/

theorem core_run_succ_of_step (M : Host.Core) {s u : M.State} (n : Nat) (h : M.step s = .next u) :
    M.run (n + 1) s = M.run n u := by
  rw [Host.Core.run, h]

/-- Settles O8, by induction on the number of steps. -/
theorem stoppedMachineNeverChanges : Obligations.StoppedMachineNeverChanges := by
  unfold Obligations.StoppedMachineNeverChanges
  intro n s h
  have hstep : core.step s = .next s := step_of_stopped h
  induction n with
  | zero => rfl
  | succ n ih => exact (core_run_succ_of_step core n hstep).trans ih

/-- A cycle of a run that goes on. -/
theorem run_succ_of_step {s u : State} (n : Nat) (hr : s.runState = .running) (h : step s = .next u) :
    run (n + 1) s = run n u := by
  simp [run, State.isRunning, hr, h]

/-- Settles O10, by induction on the cycles of the shorter run: both runs make the same first step, and a machine that has
stopped is returned at any bound. -/
theorem finishedRunIsFinal : Obligations.FinishedRunIsFinal := by
  unfold Obligations.FinishedRunIsFinal
  intro n
  induction n with
  | zero =>
    intro m s t h ht _
    obtain rfl := Host.Outcome.next.inj h
    exact run_of_stopped m ht
  | succ n ih =>
    intro m s t h ht hle
    obtain ⟨m, rfl⟩ : ∃ k, m = k + 1 := ⟨m - 1, by omega⟩
    by_cases hr : s.runState = .running
    · obtain ⟨u, hu⟩ := everyStepAnswersANextState s
      rw [run_succ_of_step _ hr hu] at h ⊢
      exact ih m u t h ht (by omega)
    · rw [run_of_stopped _ hr] at h ⊢
      exact h

/-! ### The invariants of memory and of the image length -/

theorem after_inv {s : State} (i : Instr) (h : s.Inv) : (after i s).Inv := by
  obtain ⟨hwf, hlen⟩ := h
  refine ⟨?_, ?_⟩
  · rw [mem_after]
    exact Memory.storeAll_wf _ hwf
  · rw [imageLen_after]
    exact hlen

/-- Settles O11: an instruction only stores to memory, each store keeping the canonical form, and the other two cases of a step
leave memory. -/
theorem stepKeepsCanonicalMemory : Obligations.StepKeepsCanonicalMemory := by
  unfold Obligations.StepKeepsCanonicalMemory
  intro s t hinv h
  obtain ⟨-, rfl⟩ | rfl | ⟨-, rfl⟩ := step_next_cases h
  · exact after_inv _ hinv
  · exact hinv
  · exact hinv

/-- Settles O14: no instruction writes the image length, and the other two cases of a step write the run state at most. -/
theorem stepKeepsImageLength : Obligations.StepKeepsImageLength := by
  unfold Obligations.StepKeepsImageLength
  intro s t h
  obtain ⟨-, rfl⟩ | rfl | ⟨-, rfl⟩ := step_next_cases h
  · exact imageLen_after _ s
  · rfl
  · rfl

/-- Settles O13: memory is empty, and a RUNNING machine has no record. -/
theorem resetMeetsTheInvariants : Obligations.ResetMeetsTheInvariants := by
  unfold Obligations.ResetMeetsTheInvariants
  exact ⟨⟨rfl, by decide⟩, trivial⟩

/-! ### Which bytes fault -/

theorem headD_encode_decodeWith (op b1 b2 : Byte) : (encode (decodeWith op b1 b2)).headD 0 = op := by
  rw [(encodes_decodeWith op b1 b2).2]
  rfl

theorem length_encode_of_fatal {i : Instr} (h : fatal i = true) : (encode i).length = 1 := by
  cases i with
  | illegalS07 f | illegalS00 f | illegalS02 f | illegalU30 f | illegalU34 f | illegalU37 f | illegalU33 f => rfl
  | illegalS01 p | illegalS03 p | illegalS35 p | illegalS31 p => rfl
  | _ => cases h

/-- A fatal byte has no operand byte (40_decoder_sequencer.md R123). -/
theorem operandCount_of_fatal {op b1 b2 : Byte} (h : fatal (decodeWith op b1 b2) = true) : operandCount op = 0 := by
  have hlen := length_encode_of_fatal h
  have hle := operandCount_le_two op
  rw [(encodes_decodeWith op b1 b2).2] at hlen
  simp at hlen
  omega

theorem opcodeFaultByte_fatal : ∀ op ∈ opcodeFaultBytes,
    operandCount op = 0 ∧ fatal (decodeWith op 0 0) = true ∧ fatalInFamily (decodeWith op 0 0) = false := by
  decide +kernel

theorem subOperationFaultByte_fatal : ∀ op ∈ subOperationFaultBytes,
    operandCount op = 0 ∧ fatal (decodeWith op 0 0) = true ∧ fatalInFamily (decodeWith op 0 0) = true := by
  decide +kernel

theorem mem_faultBytes_of_fatal : ∀ op : Byte, fatal (decodeWith op 0 0) = true →
    op ∈ opcodeFaultBytes ∨ op ∈ subOperationFaultBytes := by
  decide +kernel

/-- The fault of a fetched byte of cause 1. -/
theorem fetched_opcodeFaultByte {s : State} (h : s.byteAt s.pc ∈ opcodeFaultBytes) :
    fatal s.fetched = true ∧ faultOf s.fetched s.pc = .unrecognizedOpcode (s.byteAt s.pc) s.pc := by
  obtain ⟨hn, hfatal, hfam⟩ := opcodeFaultByte_fatal _ h
  rw [State.fetched, decodeWith_noOperand _ _ hn]
  refine ⟨hfatal, ?_⟩
  rw [faultOf, hfam, headD_encode_decodeWith]
  rfl

/-- The fault of a fetched byte of cause 2. -/
theorem fetched_subOperationFaultByte {s : State} (h : s.byteAt s.pc ∈ subOperationFaultBytes) :
    fatal s.fetched = true ∧ faultOf s.fetched s.pc = .unrecognizedSubOperation (s.byteAt s.pc) s.pc := by
  obtain ⟨hn, hfatal, hfam⟩ := subOperationFaultByte_fatal _ h
  rw [State.fetched, decodeWith_noOperand _ _ hn]
  refine ⟨hfatal, ?_⟩
  rw [faultOf, hfam, headD_encode_decodeWith]
  rfl

/-- A fetched instruction that is a fatal row comes from one of the 61 bytes. -/
theorem mem_faultBytes_of_fetched {s : State} (h : fatal s.fetched = true) :
    s.byteAt s.pc ∈ opcodeFaultBytes ∨ s.byteAt s.pc ∈ subOperationFaultBytes := by
  apply mem_faultBytes_of_fatal
  rw [← decodeWith_noOperand _ _ (operandCount_of_fatal h)]
  exact h

theorem step_of_fetched_fatal {s : State} (hf : s.fetches) (h : fatal s.fetched = true) :
    step s = .next { s with runState := .faulted (faultOf s.fetched s.pc) } := by
  rw [step_eq_after hf, after_of_fatal s h, State.setRunState]

/-- Settles O52: the byte decodes to a fatal row whose fault is the byte's, and that fault is all the step does. -/
theorem fetchedFatalByteFaults : Obligations.FetchedFatalByteFaults := by
  unfold Obligations.FetchedFatalByteFaults
  intro s hf
  constructor
  · intro hop
    obtain ⟨hfatal, hfault⟩ := fetched_opcodeFaultByte hop
    rw [← hfault]
    exact step_of_fetched_fatal hf hfatal
  · intro hop
    obtain ⟨hfatal, hfault⟩ := fetched_subOperationFaultByte hop
    rw [← hfault]
    exact step_of_fetched_fatal hf hfatal

/-- An instruction that is no fatal row faults no machine. -/
theorem fatal_of_after_faulted {i : Instr} {s : State} {c : Fault} (hr : s.runState = .running)
    (h : (after i s).runState = .faulted c) : fatal i = true := by
  rw [runState_after, runStateAfter, hr] at h
  split at h
  · cases h
  · split at h
    · assumption
    · cases h

/-- Settles O53: a running machine becomes FAULTED only by a fatal row, which only those bytes decode to. -/
theorem onlyAFatalOpcodeFaults : Obligations.OnlyAFatalOpcodeFaults := by
  unfold Obligations.OnlyAFatalOpcodeFaults
  intro s t c hr hstep ht
  obtain ⟨-, rfl⟩ | rfl | ⟨hstopped, -⟩ := step_next_cases hstep
  · exact mem_faultBytes_of_fetched (fatal_of_after_faulted hr ht)
  · cases ht
  · exact absurd hr hstopped

/-! ### The fault record -/

/-- A machine that is not FAULTED has no record. -/
theorem faultRecord_of_notFaulted {s : State} (h : ∀ c, s.runState ≠ .faulted c) : s.FaultRecord := by
  unfold State.FaultRecord
  split
  case h_1 op pc hr => exact absurd hr (h _)
  case h_2 op pc hr => exact absurd hr (h _)
  case h_3 hr => exact absurd hr (h _)
  all_goals trivial

/-- The fault of a fetched fatal byte is a true record: pc and memory are still those of the fetch. -/
theorem faultRecord_of_fetched_fatal {s : State} (h : fatal s.fetched = true) : (after s.fetched s).FaultRecord := by
  rw [after_of_fatal s h]
  obtain hop | hop := mem_faultBytes_of_fetched h
  · rw [(fetched_opcodeFaultByte hop).2]
    exact ⟨rfl, rfl, hop⟩
  · rw [(fetched_subOperationFaultByte hop).2]
    exact ⟨rfl, rfl, hop⟩

/-- Settles O12: a step makes a machine FAULTED only by a fetched fatal byte, whose fault is a true record; otherwise the
machine after it has no record, or is the stopped machine itself. -/
theorem stepKeepsFaultRecordTrue : Obligations.StepKeepsFaultRecordTrue := by
  unfold Obligations.StepKeepsFaultRecordTrue
  intro s t hrec hstep
  obtain ⟨⟨hr, -⟩, rfl⟩ | rfl | ⟨-, rfl⟩ := step_next_cases hstep
  · by_cases h : fatal s.fetched = true
    · exact faultRecord_of_fetched_fatal h
    · exact faultRecord_of_notFaulted fun c hc => h (fatal_of_after_faulted hr hc)
  · trivial
  · exact hrec

end Sys2Proof.Machine

/-! PROOFS: memory as data and its port, then reset and construction. -/

namespace Sys2Proof.Machine

/-! ### Canonical memories -/

/-- Two lists that read alike do not start with different addresses: at the lower one the other reads as unlisted. -/
theorem not_lt_of_read_alike {lo a b : Nat} {v : Byte} {cs ds : List Host.Cell}
    (w : wfFrom lo ((a, v) :: cs) = true) (w' : wfFrom b ds = true)
    (h : ∀ x < Config.memSize, lookupCell x ((a, v) :: cs) = lookupCell x ds) : ¬ a < b := by
  intro hlt
  obtain ⟨-, ha, hv, -⟩ := wfFrom_cons.mp w
  have hread := h a ha
  rw [lookupCell, if_pos rfl, lookupCell_below w' hlt] at hread
  exact hv hread

/-- A list with an entry reads otherwise than the empty one at that entry. -/
theorem cons_not_read_as_nil {lo a : Nat} {v : Byte} {cs : List Host.Cell} (w : wfFrom lo ((a, v) :: cs) = true)
    (h : ∀ x < Config.memSize, lookupCell x ((a, v) :: cs) = lookupCell x []) : False :=
  not_lt_of_read_alike (b := a + 1) w rfl h (Nat.lt_succ_self a)

/-- Canonical lists of cells that read alike inside memory are equal: their first entries have the same address, so the same
byte, and what follows reads alike as well. -/
theorem cells_eq_of_read_alike {lo : Nat} {cs ds : List Host.Cell} (w : wfFrom lo cs = true) (w' : wfFrom lo ds = true)
    (h : ∀ x < Config.memSize, lookupCell x cs = lookupCell x ds) : cs = ds := by
  induction cs generalizing lo ds with
  | nil =>
    cases ds with
    | nil => rfl
    | cons d ds => exact (cons_not_read_as_nil w' fun x hx => (h x hx).symm).elim
  | cons c cs ih =>
    obtain ⟨a, v⟩ := c
    cases ds with
    | nil => exact (cons_not_read_as_nil w h).elim
    | cons d ds =>
      obtain ⟨b, u⟩ := d
      obtain ⟨-, ha, -, wcs⟩ := wfFrom_cons.mp w
      obtain ⟨-, hb, hu, wds⟩ := wfFrom_cons.mp w'
      have hab : ¬ a < b := not_lt_of_read_alike w (wfFrom_cons.mpr ⟨le_rfl, hb, hu, wds⟩) h
      have hba : ¬ b < a :=
        not_lt_of_read_alike w' (wfFrom_cons.mpr ⟨le_rfl, (wfFrom_cons.mp w).2⟩) fun x hx => (h x hx).symm
      obtain rfl : a = b := by omega
      obtain rfl : v = u := by simpa [lookupCell] using h a ha
      have htail : cs = ds := by
        refine ih wcs wds fun x hx => ?_
        by_cases hxa : x = a
        · rw [hxa, lookupCell_below wcs (Nat.lt_succ_self a), lookupCell_below wds (Nat.lt_succ_self a)]
        · simpa [lookupCell, Ne.symm hxa] using h x hx
      rw [htail]

/-- Settles O56: the 16-bit addresses are all the cells there are. -/
theorem canonicalMemoriesAreEqualData : Obligations.CanonicalMemoriesAreEqualData := by
  unfold Obligations.CanonicalMemoriesAreEqualData
  intro m m' w w' h
  refine congrArg Memory.mk (cells_eq_of_read_alike w w' fun x hx => ?_)
  have hword : (BitVec.ofNat 16 x).toNat = x := Nat.mod_eq_of_lt hx
  rw [← hword]
  exact h (BitVec.ofNat 16 x)

/-! ### The port -/

/-- Settles O57, by induction on the number of cells. -/
theorem fetchBytesReadsTheRange : Obligations.FetchBytesReadsTheRange := by
  unfold Obligations.FetchBytesReadsTheRange
  intro m offset count h
  induction count generalizing offset with
  | zero => rfl
  | succ count ih =>
    rw [Memory.fetchBytes, Memory.fetchByte_of_lt m (by omega), ih (offset + 1) (by omega), List.range_succ_eq_map]
    simp [Nat.add_assoc, Nat.add_comm 1]

theorem Memory.fetchByte_of_ge (m : Memory) {offset : Nat} (h : 65536 ≤ offset) :
    m.fetchByte offset = .error (.memoryOutOfBounds offset) :=
  if_neg (Nat.not_lt.mpr h)

theorem Memory.setByte_of_ge (m : Memory) {offset : Nat} (v : Byte) (h : 65536 ≤ offset) :
    m.setByte offset v = .error (.memoryOutOfBounds offset) :=
  if_neg (Nat.not_lt.mpr h)

/-- Settles O54: each access goes the way of the port's answer, which the offset decides. -/
theorem portBoundsErrorEndsTheRun : Obligations.PortBoundsErrorEndsTheRun := by
  unfold Obligations.PortBoundsErrorEndsTheRun
  intro offset v s k w
  constructor
  · intro h
    rw [portRead, portWrite, Memory.fetchByte_of_ge _ h, Memory.setByte_of_ge _ v h]
    exact ⟨rfl, rfl⟩
  · intro h
    rw [portRead, portWrite, Memory.fetchByte_of_lt _ h, Memory.setByte_of_lt _ v h]
    exact ⟨rfl, rfl⟩

/-! ### Reset and construction -/

/-- Settles O59: each register and each flag by name, and a memory that lists no cell. -/
theorem resetState : Obligations.ResetState := by
  unfold Obligations.ResetState
  refine ⟨rfl, rfl, fun r => ?_, fun f => ?_, fun a => rfl, rfl, rfl⟩
  · cases r <;> rfl
  · cases f <;> rfl

theorem Memory.load_ofImage (image : List Byte) (a : Nat) : (Memory.ofImage image).load a = image.getD a 0 :=
  lookupCell_cellsFrom image 0 a

theorem Memory.ofImage_wf {image : List Byte} (h : image.length ≤ Config.memSize) :
    (Memory.ofImage image).wf = true :=
  wfFrom_cellsFrom image le_rfl (by omega)

/-- Settles O60: the two sides of the length test; what a loaded image leaves in memory is `lookupCell_cellsFrom`'s. -/
theorem constructLoadsTheImage : Obligations.ConstructLoadsTheImage := by
  unfold Obligations.ConstructLoadsTheImage
  intro image
  constructor
  · intro h
    exact ⟨_, if_pos h, fun a => Memory.load_ofImage image a.toNat, rfl, ⟨Memory.ofImage_wf h, h⟩,
      rfl, rfl, rfl, rfl, rfl⟩
  · intro h
    exact if_neg (Nat.not_le.mpr h)

end Sys2Proof.Machine

/-! PROOFS: the opcode byte as a number, its fields, and the counts of the opcode map. -/

namespace Sys2Proof

/-- Settles O3: a closed fact, 28 byte lists run through the decoder. -/
theorem opcodeMapWordsDecode : Obligations.OpcodeMapWordsDecode := by
  unfold Obligations.OpcodeMapWordsDecode
  decide

theorem getLsbD_eq_decide_div (op : Byte) (k : Nat) : op.getLsbD k = decide (op.toNat / 2 ^ k % 2 = 1) := by
  rw [BitVec.getLsbD, Nat.testBit_eq_decide_div_mod_eq]

theorem cls_toNat (op : Byte) : (cls op).toNat = op.toNat / 64 := by
  have h := op.isLt
  simp only [cls, BitVec.extractLsb'_toNat, Nat.shiftRight_eq_div_pow]
  omega

theorem fst_toNat (op : Byte) : (fst op).toNat = op.toNat / 8 % 8 := by
  simp [fst, BitVec.extractLsb'_toNat, Nat.shiftRight_eq_div_pow]

theorem snd_toNat (op : Byte) : (snd op).toNat = op.toNat % 8 := by
  simp [snd, BitVec.extractLsb'_toNat]

/-- Settles O4: each field is a shift and a remainder of the byte; `ju` tests two of them. -/
theorem extractorsAreMasksAndShifts : Obligations.ExtractorsAreMasksAndShifts := by
  unfold Obligations.ExtractorsAreMasksAndShifts
  intro op
  refine ⟨getLsbD_eq_decide_div op 4, cls_toNat op, fst_toNat op, snd_toNat op, ?_⟩
  rw [← fst_toNat, ← snd_toNat, ju]
  simp [beq_eq_decide, BitVec.toNat_eq]

/-- Settles O5: a closed fact over the 256 bytes. -/
theorem implementedAndFatalByteCounts : Obligations.ImplementedAndFatalByteCounts := by
  unfold Obligations.ImplementedAndFatalByteCounts
  decide +kernel

theorem opcode_eq_ofNat : ∀ (c : BitVec 2) (f s : BitVec 3),
    opcode c f s = BitVec.ofNat 8 (64 * c.toNat + 8 * f.toNat + s.toNat) := by
  decide +kernel

theorem pairOpcode_eq_ofNat : ∀ (c p : BitVec 2) (b : BitVec 1) (s : BitVec 3),
    pairOpcode c p b s = BitVec.ofNat 8 (64 * c.toNat + 16 * p.toNat + 8 * b.toNat + s.toNat) := by
  decide +kernel

end Sys2Proof

/-! PROOFS: the arithmetic and logic forms, from the one state `after.computed` they leave. -/

namespace Sys2Proof.Machine

/-! ### The state an operation on A leaves -/

/-- A form that computes the 16-bit result `r`, a number `n`: A is its low byte, the flags are those of `n`. -/
theorem computed_result {r : Word} {n : Nat} (len : Word) (s : State) (h : r.toNat = n) :
    ((after.computed r len s).reg .A).toNat = n % 256 ∧ FlagsOfResult n s.flags (after.computed r len s).flags ∧
      (after.computed r len s).pc = s.pc + len ∧ (after.computed r len s).sp = s.sp ∧
      Leaves [.A] [] s (after.computed r len s) := by
  subst h
  refine ⟨?_, flagsOfResult_setAll r s.flags, rfl, rfl, ?_⟩
  · rw [after.computed, State.reg_setPc, State.reg_setReg_same, loByte_toNat]
  · exact ((Leaves.refl [.A] [] (s.setFlags _)).setReg _ (by simp)).setPc _

theorem setWidth_toNat (v : Byte) : (v.setWidth 16).toNat = v.toNat := by
  have h := v.isLt
  rw [BitVec.toNat_setWidth]
  omega

/-- The same for a widened byte `v`, which never carries. -/
theorem computed_byte {r : Word} {v : Byte} (len : Word) (s : State) (h : r = v.setWidth 16) :
    (after.computed r len s).reg .A = v ∧ (after.computed r len s).flags.cy = false ∧
      FlagsOfResult v.toNat s.flags (after.computed r len s).flags ∧
      (after.computed r len s).pc = s.pc + len ∧ (after.computed r len s).sp = s.sp ∧
      Leaves [.A] [] s (after.computed r len s) := by
  have hv := v.isLt
  obtain ⟨hA, hflags, hrest⟩ := computed_result len s (h ▸ setWidth_toNat v)
  have ⟨_, _, _, hcy, _⟩ := hflags
  refine ⟨BitVec.eq_of_toNat_eq (by omega), ?_, hflags, hrest⟩
  rw [hcy, decide_eq_false_iff_not]
  omega

/-! ### Addition, subtraction, logic -/

/-- Settles O33: the result's number is the sum. -/
theorem additionFormsComputeTheSum : Obligations.AdditionFormsComputeTheSum := by
  unfold Obligations.AdditionFormsComputeTheSum
  intro o d8 s sum done
  exact ⟨⟨_, exec_eq (.add o) s, computed_result 1 s (addResult_toNat _ _ _)⟩,
    ⟨_, exec_eq (.adc o) s, computed_result 1 s (addResult_toNat _ _ _)⟩,
    ⟨_, exec_eq (.adi d8) s, computed_result 2 s (addResult_toNat _ _ _)⟩,
    ⟨_, exec_eq (.aci d8) s, computed_result 2 s (addResult_toNat _ _ _)⟩⟩

/-- Settles O34: the result's number is the wrapped difference. -/
theorem subtractionFormsComputeTheDifference : Obligations.SubtractionFormsComputeTheDifference := by
  unfold Obligations.SubtractionFormsComputeTheDifference
  intro o d8 s diff done
  exact ⟨⟨_, exec_eq (.sub o) s, computed_result 1 s (subResult_toNat _ _ _)⟩,
    ⟨_, exec_eq (.sbb o) s, computed_result 1 s (subResult_toNat _ _ _)⟩,
    ⟨_, exec_eq (.sui d8) s, computed_result 2 s (subResult_toNat _ _ _)⟩,
    ⟨_, exec_eq (.sbi d8) s, computed_result 2 s (subResult_toNat _ _ _)⟩⟩

/-- Settles O35: the result is the combined byte, widened. -/
theorem logicalFormsCombineBitwise : Obligations.LogicalFormsCombineBitwise := by
  unfold Obligations.LogicalFormsCombineBitwise
  intro o d8 s done
  exact ⟨⟨_, exec_eq (.ana o) s, computed_byte 1 s (andResult_eq _ _)⟩,
    ⟨_, exec_eq (.xra o) s, computed_byte 1 s (xorResult_eq _ _)⟩,
    ⟨_, exec_eq (.ora o) s, computed_byte 1 s (orResult_eq _ _)⟩,
    ⟨_, exec_eq (.ani d8) s, computed_byte 2 s (andResult_eq _ _)⟩,
    ⟨_, exec_eq (.xri d8) s, computed_byte 2 s (xorResult_eq _ _)⟩,
    ⟨_, exec_eq (.ori d8) s, computed_byte 2 s (orResult_eq _ _)⟩⟩

/-! ### Comparison -/

theorem subResult_noCarry_toNat (a v : Byte) :
    (subResult a v false).toNat = (65536 + a.toNat - v.toNat) % 65536 := by
  have ha := a.isLt
  have hv := v.isLt
  rw [subResult_toNat, Bool.toNat_false]
  split <;> omega

/-- The flags of a comparison, in whatever state they end up: zero tells equality, carry tells the smaller. -/
theorem flags_compare (a v : Byte) (f : Flags) :
    let g := setAll (subResult a v false) f
    FlagsOfResult ((65536 + a.toNat - v.toNat) % 65536) f g ∧ g.z = decide (a = v) ∧
      g.cy = decide (a.toNat < v.toNat) := by
  have ha := a.isLt
  have hv := v.isLt
  have hflags := flagsOfResult_setAll (subResult a v false) f
  rw [subResult_noCarry_toNat] at hflags
  have ⟨hz, _, _, hcy, _⟩ := hflags
  refine ⟨hflags, ?_, ?_⟩
  · rw [hz, decide_eq_decide, BitVec.toNat_eq]
    omega
  · rw [hcy, decide_eq_decide]
    omega

/-- Settles O36: a compare writes the flags of the difference and pc. -/
theorem compareFormsSetFlagsOnly : Obligations.CompareFormsSetFlagsOnly := by
  unfold Obligations.CompareFormsSetFlagsOnly
  intro o d8 s done
  constructor
  · obtain ⟨hflags, hz, hcy⟩ := flags_compare (s.reg .A) (valueOf o s) s.flags
    exact ⟨_, exec_eq (.cmp o) s, hflags, hz, hcy, rfl, rfl, leaves_after (.cmp o) s⟩
  · obtain ⟨hflags, hz, hcy⟩ := flags_compare (s.reg .A) d8 s.flags
    exact ⟨_, exec_eq (.cpi d8) s, hflags, hz, hcy, rfl, rfl, leaves_after (.cpi d8) s⟩

/-! ### The parity of a sum -/

/-- A ninth bit is one more bit. -/
theorem oneBits_add_256 : ∀ v : Byte, oneBits (v.toNat + 256) = oneBits v.toNat + 1 := by
  decide +kernel

/-- Of a result of nine bits, the sixteen counted are those of its low byte and the carry. -/
theorem parity_of_nineBits {r : Word} (h : r.toNat < 512) :
    parityRule r = (decide (oneBits (loByte r).toNat % 2 = 0) ^^ carryRule r) := by
  have hlo := loByte_toNat r
  rw [parityRule_eq, carryRule_eq]
  by_cases hc : 255 < r.toNat
  · rw [show r.toNat = (loByte r).toNat + 256 by omega, oneBits_add_256]
    obtain hp | hp := Nat.mod_two_eq_zero_or_one (oneBits (loByte r).toNat) <;> simp [hp, Nat.add_mod]
  · rw [show (loByte r).toNat = r.toNat by omega]
    simp [hc]

theorem addResult_lt (a v : Byte) (cin : Bool) : (addResult a v cin).toNat < 512 := by
  have ha := a.isLt
  have hv := v.isLt
  have hcin := cin.toNat_le
  rw [addResult_toNat]
  omega

theorem parity_computed_add (a v : Byte) (cin : Bool) (len : Word) (s : State) :
    let t := after.computed (addResult a v cin) len s
    t.flags.p = (decide (oneBits (t.reg .A).toNat % 2 = 0) ^^ t.flags.cy) := by
  intro t
  have hA : t.reg .A = loByte (addResult a v cin) := rfl
  rw [hA]
  exact parity_of_nineBits (addResult_lt a v cin)

/-- Settles O37: a sum of two bytes and a carry has nine bits. -/
theorem carryingAdditionInvertsParity : Obligations.CarryingAdditionInvertsParity := by
  unfold Obligations.CarryingAdditionInvertsParity
  intro o d8 s t i hi h
  obtain rfl := exec_next_iff.mp h
  simp only [List.mem_cons, List.not_mem_nil, or_false] at hi
  obtain rfl | rfl | rfl | rfl := hi <;> exact parity_computed_add _ _ _ _ s

end Sys2Proof.Machine

/-! PROOFS: control, transfer, single-operand and stack forms, and the fatal rows. -/

namespace Sys2Proof.Machine

/-! ### Control -/

/-- Settles O23: `exec_eq`'s states for the two set carry and pc only. -/
theorem stcSetsAndCmcInvertsCarry : Obligations.StcSetsAndCmcInvertsCarry := by
  unfold Obligations.StcSetsAndCmcInvertsCarry
  exact fun s => ⟨exec_eq .stc s, exec_eq .cmc s⟩

/-- Settles O24: `exec_eq`'s state for HLT sets the run state only. -/
theorem hltHaltsInPlace : Obligations.HltHaltsInPlace := by
  unfold Obligations.HltHaltsInPlace
  exact fun s => exec_eq .hlt s

/-! ### MVI and MOV -/

/-- Settles O29: the two places an immediate is written to, and the opcode byte as the number its fields make. -/
theorem mviPutsTheImmediate : Obligations.MviPutsTheImmediate := by
  unfold Obligations.MviPutsTheImmediate
  intro d d8 s
  have hop : opcode 0 d.sel 6 = BitVec.ofNat 8 (8 * d.sel.toNat + 6) := by simpa using opcode_eq_ofNat 0 d.sel 6
  refine ⟨congrArg (fun op => [op, d8]) hop, rfl, ?_, ?_⟩
  · exact ⟨_, exec_eq (.mviR d d8) s, State.reg_setReg_same s d d8, rfl, rfl, rfl, leaves_after (.mviR d d8) s⟩
  · exact ⟨_, exec_eq (.mviM d8) s, State.byteAt_setByteAt_same s _ d8, rfl, rfl, rfl, leaves_after (.mviM d8) s⟩

/-- Settles O30: what each form writes is the byte of its source in the state before, so the address is that state's HL. -/
theorem movCopiesTheSource : Obligations.MovCopiesTheSource := by
  unfold Obligations.MovCopiesTheSource
  intro d r s
  refine ⟨?_, ?_, ?_, ?_, ?_, ?_⟩
  · exact congrArg (fun op => [op]) (opcode_eq_ofNat 1 d.sel r.sel)
  · exact congrArg (fun op => [op]) (opcode_eq_ofNat 1 d.sel 6)
  · exact congrArg (fun op => [op]) (opcode_eq_ofNat 1 6 r.sel)
  · exact ⟨_, exec_eq (.movRR d r) s, State.reg_setReg_same s d _, rfl, rfl, rfl, leaves_after (.movRR d r) s⟩
  · exact ⟨_, exec_eq (.movRM d) s, State.reg_setReg_same s d _, rfl, rfl, rfl, leaves_after (.movRM d) s⟩
  · exact ⟨_, exec_eq (.movMR r) s, State.byteAt_setByteAt_same s _ _, rfl, rfl, rfl, leaves_after (.movMR r) s⟩

/-! ### INR and DCR -/

theorem increment_toNat (v : Byte) : (increment v).toNat = (v.toNat + 1) % 256 :=
  BitVec.toNat_add v 1

theorem decrement_toNat (v : Byte) : (decrement v).toNat = (v.toNat + 255) % 256 := by
  rw [decrement, BitVec.toNat_sub, Nat.add_comm]
  rfl

/-- The flags are those of the byte the update leaves. -/
theorem flagsOfByte_updated (f : Byte → Byte) (o : Operand) (s : State) :
    FlagsOfByte (valueOf o (after.updated f o s)).toNat s.flags (after.updated f o s).flags := by
  rw [valueOf_updated]
  exact flagsOfByte_setSzp _ _

theorem valueOf_updated_increment (o : Operand) (s : State) :
    (valueOf o (after.updated increment o s)).toNat = ((valueOf o s).toNat + 1) % 256 := by
  rw [valueOf_updated, increment_toNat]

theorem valueOf_updated_decrement (o : Operand) (s : State) :
    (valueOf o (after.updated decrement o s)).toNat = ((valueOf o s).toNat + 255) % 256 := by
  rw [valueOf_updated, decrement_toNat]

/-- Settles O38: the two forms are one update, of a register or of the cell at HL, which leaves HL alone. -/
theorem inrAddsOneAndKeepsCarry : Obligations.InrAddsOneAndKeepsCarry := by
  unfold Obligations.InrAddsOneAndKeepsCarry
  exact fun d s =>
    ⟨⟨_, exec_eq (.inrR d) s, valueOf_updated_increment (.reg d) s, flagsOfByte_updated increment (.reg d) s, rfl, rfl,
      leaves_after (.inrR d) s⟩,
     ⟨_, exec_eq .inrM s, valueOf_updated_increment .mem s, flagsOfByte_updated increment .mem s, rfl, rfl,
      leaves_after .inrM s⟩⟩

/-- Settles O39, as O38. -/
theorem dcrSubtractsOneAndKeepsCarry : Obligations.DcrSubtractsOneAndKeepsCarry := by
  unfold Obligations.DcrSubtractsOneAndKeepsCarry
  exact fun d s =>
    ⟨⟨_, exec_eq (.dcrR d) s, valueOf_updated_decrement (.reg d) s, flagsOfByte_updated decrement (.reg d) s, rfl, rfl,
      leaves_after (.dcrR d) s⟩,
     ⟨_, exec_eq .dcrM s, valueOf_updated_decrement .mem s, flagsOfByte_updated decrement .mem s, rfl, rfl,
      leaves_after .dcrM s⟩⟩

/-! ### Rotates -/

theorem rotatedLeft_toNat (a : Byte) : (rotatedLeft a).toNat = a.toNat * 2 % 256 + a.toNat / 128 := by
  have ha := a.isLt
  have hout : a.toNat >>> 7 % 2 < 2 ^ 1 := by omega
  simp only [rotatedLeft, BitVec.toNat_append, BitVec.extractLsb'_toNat, Nat.shiftRight_zero]
  rw [← Nat.shiftLeft_add_eq_or_of_lt hout, Nat.shiftLeft_eq, Nat.shiftRight_eq_div_pow]
  omega

theorem rotatedRight_toNat (a : Byte) : (rotatedRight a).toNat = a.toNat / 2 + a.toNat % 2 * 128 := by
  have ha := a.isLt
  have hrest : a.toNat >>> 1 % 2 ^ 7 < 2 ^ 7 := by omega
  simp only [rotatedRight, BitVec.toNat_append, BitVec.extractLsb'_toNat, Nat.shiftRight_zero]
  rw [← Nat.shiftLeft_add_eq_or_of_lt hrest, Nat.shiftLeft_eq, Nat.shiftRight_eq_div_pow]
  omega

theorem topBit_eq (a : Byte) : a.getLsbD 7 = decide (128 ≤ a.toNat) := by
  have ha := a.isLt
  rw [getLsbD_eq_decide_div, decide_eq_decide]
  omega

theorem bottomBit_eq (a : Byte) : a.getLsbD 0 = decide (a.toNat % 2 = 1) := by
  rw [getLsbD_eq_decide_div, pow_zero, Nat.div_one]

/-- Settles O41: the rotated byte as a number, and the outgoing bit as a comparison. -/
theorem rotatesMoveTheOutgoingBit : Obligations.RotatesMoveTheOutgoingBit := by
  unfold Obligations.RotatesMoveTheOutgoingBit
  intro s
  constructor
  · refine ⟨_, exec_eq .rlc s, ?_, ?_, rfl, rfl, leaves_after .rlc s⟩
    · rw [← rotatedLeft_toNat]
      rfl
    · rw [← topBit_eq]
      rfl
  · refine ⟨_, exec_eq .rrc s, ?_, ?_, rfl, rfl, leaves_after .rrc s⟩
    · rw [← rotatedRight_toNat]
      rfl
    · rw [← bottomBit_eq]
      rfl

/-! ### DAD and INX -/

/-- Settles O42: both operands are read from the state before, and carry is the 32-bit sum's. -/
theorem dadAddsIntoHl : Obligations.DadAddsIntoHl := by
  unfold Obligations.DadAddsIntoHl
  intro y s
  refine ⟨_, exec_eq (.dad y) s, ?_, ?_, rfl, rfl, leaves_after (.dad y) s⟩
  · rw [after, State.pair_setPc, State.pair_setPair_same, BitVec.toNat_add]
  · rw [← carry16_eq]
    rfl

/-- Settles O43: INX of a pair sets the pair only, INX SP sp only. -/
theorem inxIncrementsThePair : Obligations.InxIncrementsThePair := by
  unfold Obligations.InxIncrementsThePair
  intro p s
  constructor
  · refine ⟨_, exec_eq (.inx (.pair p)) s, ?_, rfl, rfl, rfl, leaves_after (.inx (.pair p)) s⟩
    rw [after, State.pair_setPc, State.pair_setPair_same, BitVec.toNat_add]
    rfl
  · exact ⟨_, exec_eq (.inx .sp) s, BitVec.toNat_add s.sp 1, rfl, rfl, leaves_after (.inx .sp) s⟩

/-! ### PUSH and POP -/

theorem byteAt_pushed_hi (hi lo : Byte) (s : State) : (after.pushed hi lo s).byteAt (s.sp - 1) = hi := by
  rw [after.pushed, State.byteAt_setPc, State.byteAt_setSp,
    State.byteAt_setByteAt_other _ _ (sub_one_ne_sub_two s.sp), State.byteAt_setByteAt_same]

theorem byteAt_pushed_lo (hi lo : Byte) (s : State) : (after.pushed hi lo s).byteAt (s.sp - 2) = lo :=
  State.byteAt_setByteAt_same _ _ _

/-- Settles O44: the two stores are at distinct cells, so both are read back. -/
theorem pushStoresThePair : Obligations.PushStoresThePair := by
  unfold Obligations.PushStoresThePair
  exact ⟨rfl, rfl, rfl, fun p s => ⟨_, exec_eq (.pushRp p) s, byteAt_pushed_hi _ _ s, byteAt_pushed_lo _ _ s, rfl, rfl,
    rfl, leaves_after (.pushRp p) s⟩⟩

theorem statusByte_toNat (f : Flags) : (statusByte f).toNat =
    128 * f.s.toNat + 64 * f.z.toNat + 16 * f.ac.toNat + 4 * f.p.toNat + 2 + f.cy.toNat := by
  obtain ⟨z, s, p, cy, ac⟩ := f
  revert z s p cy ac
  decide

/-- Settles O45: as any push, of A and of the status byte. -/
theorem pushPswStoresAccumulatorAndStatus : Obligations.PushPswStoresAccumulatorAndStatus := by
  unfold Obligations.PushPswStoresAccumulatorAndStatus
  refine ⟨rfl, fun s => ⟨_, exec_eq .pushPsw s, byteAt_pushed_hi _ _ s, ?_, rfl, rfl, rfl, leaves_after .pushPsw s⟩⟩
  rw [after, byteAt_pushed_lo, statusByte_toNat]

/-- The two cells of a popped pair. -/
theorem reg_after_popRp (p : RegPair) (s : State) :
    (after (.popRp p) s).reg (loReg p) = s.byteAt s.sp ∧ (after (.popRp p) s).reg (hiReg p) = s.byteAt (s.sp + 1) := by
  simp [after, State.reg_setPair, hiReg_ne_loReg]

/-- Settles O46: the two registers are `reg_after_popRp`'s, and POP stores nothing. -/
theorem popLoadsThePair : Obligations.PopLoadsThePair := by
  unfold Obligations.PopLoadsThePair
  refine ⟨rfl, rfl, rfl, fun p s => ?_⟩
  obtain ⟨hlo, hhi⟩ := reg_after_popRp p s
  exact ⟨_, exec_eq (.popRp p) s, hlo, hhi, rfl, rfl, rfl, leaves_after (.popRp p) s⟩

theorem regA_after_popPsw (s : State) : (after .popPsw s).reg .A = s.byteAt (s.sp + 1) := rfl

/-- Settles O47: each flag is a bit of the byte at sp, written as a remainder; the top one needs none. -/
theorem popPswLoadsAccumulatorAndFlags : Obligations.PopPswLoadsAccumulatorAndFlags := by
  unfold Obligations.PopPswLoadsAccumulatorAndFlags
  intro s
  have hlt := (s.byteAt s.sp).isLt
  have hsign : (s.byteAt s.sp).getLsbD 7 = decide ((s.byteAt s.sp).toNat / 128 = 1) := by
    rw [topBit_eq, decide_eq_decide]
    omega
  exact ⟨_, exec_eq .popPsw s, regA_after_popPsw s, hsign, getLsbD_eq_decide_div _ 6, getLsbD_eq_decide_div _ 4,
    getLsbD_eq_decide_div _ 2, bottomBit_eq _, rfl, rfl, leaves_after .popPsw s⟩

/-- What a POP finds after a push: the two bytes, and the stack pointer to restore. -/
theorem pushed_stack (hi lo : Byte) (s : State) :
    let t := after.pushed hi lo s
    t.byteAt t.sp = lo ∧ t.byteAt (t.sp + 1) = hi ∧ t.sp + 2 = s.sp := by
  have hhi : s.sp - 2 + 1 = s.sp - 1 := by bv_omega
  refine ⟨byteAt_pushed_lo hi lo s, ?_, BitVec.sub_add_cancel s.sp 2⟩
  rw [show (after.pushed hi lo s).sp + 1 = s.sp - 1 from hhi]
  exact byteAt_pushed_hi hi lo s

theorem pair_after_popRp (p : RegPair) (s : State) :
    (after (.popRp p) s).pair p = wordOf (s.byteAt (s.sp + 1)) (s.byteAt s.sp) := by
  rw [after, State.pair_setPc, State.pair_setSp, State.pair_setPair_same]

/-- Settles O48: the two bytes popped are those pushed. -/
theorem pushThenPopCopiesThePair : Obligations.PushThenPopCopiesThePair := by
  unfold Obligations.PushThenPopCopiesThePair
  intro p q s t u hpush hpop
  obtain rfl := exec_next_iff.mp hpush
  obtain rfl := exec_next_iff.mp hpop
  obtain ⟨hlo, hhi, hsp⟩ := pushed_stack (s.reg (hiReg p)) (s.reg (loReg p)) s
  refine ⟨?_, hsp⟩
  rw [pair_after_popRp]
  exact congrArg₂ wordOf hhi hlo

/-- Settles O49: POP PSW reads memory and sp only, which the change in between leaves as the push left them, and the status
byte gives the flags back. -/
theorem pushThenPopPswRestores : Obligations.PushThenPopPswRestores := by
  unfold Obligations.PushThenPopPswRestores
  intro s t u x f hpush hpop
  obtain rfl := exec_next_iff.mp hpush
  obtain rfl := exec_next_iff.mp hpop
  obtain ⟨hlo, hhi, hsp⟩ := pushed_stack (s.reg .A) (statusByte s.flags) s
  refine ⟨?_, ?_, hsp⟩
  · exact (regA_after_popPsw _).trans hhi
  · exact (congrArg flagsOfStatus hlo).trans (flagsOfStatus_statusByte s.flags)

/-! ### The fatal rows -/

/-- Settles O51: each row's whole effect is its fault, and its opcode byte is the number its fields make. -/
theorem fatalRowsRaiseTheirFault : Obligations.FatalRowsRaiseTheirFault := by
  unfold Obligations.FatalRowsRaiseTheirFault
  intro f p s sub unrec
  have hop (c : BitVec 2) (n : BitVec 3) := opcode_eq_ofNat c f n
  have hpair (c : BitVec 2) (b : BitVec 1) (n : BitVec 3) := pairOpcode_eq_ofNat c p b n
  refine ⟨?_, ?_, ?_, ?_, ?_, ?_, ?_, ?_, ?_, ?_, ?_⟩ <;> rw [exec_eq, after]
  all_goals simp [hop, hpair, sub, unrec, State.setRunState]

end Sys2Proof.Machine
